-- ==== Sys2Proof/Word.lean ====
section
/-!
DEFINITION. The three widths of the machine's data (spec 00_scope R8, R10): 16-bit words, 8-bit characters
and 3-bit register numbers.
-/

namespace Sys2Proof

/-- A word: the content of a register or of a memory cell, or a cell's address (R8, R10). -/
abbrev Word := BitVec 16

/-- A character: one byte of the character source or sink (R152). -/
abbrev Byte := BitVec 8

/-- A register number, a 3-bit instruction field: every value names one of R0 to R7 (R20, R85). -/
abbrev RegNum := BitVec 3

end Sys2Proof
end

