-- ==== Sys2Proof/Config.lean ====
section
/-!
DEFINITION. The parameters the document leaves open (spec 00_scope R9), gathered in one record. Their default
values are in Machine/Parameters.lean, that of OPCODE_MAP in Decode.lean.
-/

namespace Sys2Proof

/-- What an opcode value can select: the fourteen active instructions, and the two reserved values (R81). -/
inductive Opcode where
  | br | add | ld | st | jsr | and | ldr | str | reserved8 | not | ldi | sti | jmp | reserved13 | lea | trap
deriving DecidableEq, Repr

/-- OPCODE_MAP as a table: the entry at `op` is what the opcode value `op` selects (R86). -/
abbrev OpcodeMap := Vector Opcode 16

/-- The open parameters of R9, but for the three flag values. Nothing in a run changes them. -/
structure Config where
  /-- OPCODE_MAP, which opcode value selects which instruction (R86, D3). -/
  opcodeMap : OpcodeMap
  /-- KBSR_ADDR, the address of the keyboard-status cell (R62, D2). -/
  kbsrAddr : Word
  /-- KBDR_ADDR, the address of the keyboard-data cell (R62, D2). -/
  kbdrAddr : Word
  /-- PC_RESET (R38, D5). -/
  pcReset : Word
  /-- COND_RESET (R38, D6). -/
  condReset : Word
  /-- REG_INIT, the content of each of R0 to R7 after reset (R38, D7). -/
  regInit : Word
  /-- MEM_INIT, the content of each memory cell after reset (R38, D7). -/
  memInit : Word
  /-- IN_PROMPT, the bytes the IN service writes before it reads (R157, D8). -/
  inPrompt : List Byte
deriving DecidableEq, Repr

end Sys2Proof
end

