-- ==== Sys2Proof/Syntax.lean ====
section
/-!
DEFINITION. The instructions: one constructor per row of spec/opcode_table.json (30_encoding R82, R83, R95).
Registers are 3-bit numbers and immediates keep their field's width; a handler sign-extends them (R84).
-/

namespace Sys2Proof

/-- One constructor per row of the opcode table, its arguments the row's named fields, high bits first. -/
inductive Instr where
  /-- BR: condition bits n, z, p and a PC-relative offset (R120). -/
  | br (n z p : Bool) (offset9 : BitVec 9)
  /-- ADD, register form (R110). -/
  | addReg (dst src1 src2 : RegNum)
  /-- ADD, immediate form (R111). -/
  | addImm (dst src1 : RegNum) (imm5 : BitVec 5)
  /-- LD (R135). -/
  | ld (dst : RegNum) (offset9 : BitVec 9)
  /-- ST (R139). -/
  | st (src : RegNum) (offset9 : BitVec 9)
  /-- JSR, the PC-relative form of opcode 4 (R123). -/
  | jsr (offset11 : BitVec 11)
  /-- JSRR, the register form of opcode 4 (R124). -/
  | jsrr (base : RegNum)
  /-- AND, register form (R112). -/
  | andReg (dst src1 src2 : RegNum)
  /-- AND, immediate form (R113). -/
  | andImm (dst src1 : RegNum) (imm5 : BitVec 5)
  /-- LDR (R137). -/
  | ldr (dst base : RegNum) (offset6 : BitVec 6)
  /-- STR (R141). -/
  | str (src base : RegNum) (offset6 : BitVec 6)
  /-- Reserved opcode 8, with the twelve bits it ignores (R126). -/
  | res8 (ignored : BitVec 12)
  /-- NOT (R114). -/
  | not (dst src : RegNum)
  /-- LDI (R136). -/
  | ldi (dst : RegNum) (offset9 : BitVec 9)
  /-- STI (R140). -/
  | sti (src : RegNum) (offset9 : BitVec 9)
  /-- JMP; RET is JMP with base R7 (R122). -/
  | jmp (base : RegNum)
  /-- Reserved opcode 13, with the twelve bits it ignores (R126). -/
  | res13 (ignored : BitVec 12)
  /-- LEA (R138). -/
  | lea (dst : RegNum) (offset9 : BitVec 9)
  /-- TRAP x20 (R153). -/
  | trapGetc
  /-- TRAP x21 (R154). -/
  | trapOut
  /-- TRAP x22 (R155). -/
  | trapPuts
  /-- TRAP x23 (R157). -/
  | trapIn
  /-- TRAP x24 (R158). -/
  | trapPutsp
  /-- TRAP x25 (R160). -/
  | trapHalt
  /-- TRAP with a code that selects no service (R161). -/
  | trapUnrecognised (code : Byte)
deriving DecidableEq, Repr

end Sys2Proof
end

