-- ==== Sys2Proof/WellFormed.lean ====
section
/-!
DEFINITION. Which terms of `Instr` are instructions. Every field's range is its type's; the one check left is
that the fallback row of TRAP holds no code of the six services (30_encoding R87, R95; 43_trap R161).
-/

namespace Sys2Proof

/-- The six trap codes that select a service, 0x20 to 0x25 (R87). -/
def isServiceCode (code : Byte) : Bool := 0x20 ≤ code.toNat && code.toNat ≤ 0x25

/-- Well-formedness: `trapUnrecognised` holds a code outside 0x20 to 0x25 (R161). -/
def Instr.wellFormed : Instr → Bool
  | .trapUnrecognised code => !isServiceCode code
  | .br _ _ _ _ | .addReg _ _ _ | .addImm _ _ _ | .ld _ _ | .st _ _ | .jsr _ | .jsrr _ | .andReg _ _ _
  | .andImm _ _ _ | .ldr _ _ _ | .str _ _ _ | .res8 _ | .not _ _ | .ldi _ _ | .sti _ _ | .jmp _ | .res13 _
  | .lea _ _ | .trapGetc | .trapOut | .trapPuts | .trapIn | .trapPutsp | .trapHalt => true

end Sys2Proof
end

