-- ==== Sys2Proof/Decode.lean ====
section
/-!
DEFINITION. From words to instructions and back (spec 30_encoding): reading the parameter OPCODE_MAP, the decoder, which
is total (R81, R89), the encoder, the rows of the opcode table, sign extension (00_scope R12), and the host's
entry `decodeTableWord`.
-/

namespace Sys2Proof

/-- The default of OPCODE_MAP (R86), by rising opcode value. The entries 8 and 13 are the document's; every other is
PRESUMED, the LC-3 numbering (D3, log 8): unsafe. -/
def opcodeMapDefault : OpcodeMap :=
  #v[.br, .add, .ld, .st, .jsr, .and, .ldr, .str, .reserved8, .not, .ldi, .sti, .jmp, .reserved13, .lea, .trap]

/-- What the opcode value `op` selects (R81). -/
def opcodeOf (m : OpcodeMap) (op : BitVec 4) : Opcode := m[op.toNat]

/-- The opcode value that selects `o`: OPCODE_MAP read from right to left. -/
def opcodeNumber (m : OpcodeMap) (o : Opcode) : BitVec 4 := BitVec.ofNat 4 (m.toList.idxOf o)

/-- The document's constraint on OPCODE_MAP (R9): 8 and 13 are the two reserved values, and the other fourteen are
all used, each by an instruction of its own. -/
def OpcodeMapLegal (m : OpcodeMap) : Prop :=
  opcodeOf m 8 = .reserved8 ∧ opcodeOf m 13 = .reserved13 ∧ m.toList.Nodup

/-! The fields of an instruction word `ir`, named and placed as R83 names and places them. -/

/-- `op = ir[15:12]` (R81). -/
def opField (ir : Word) : BitVec 4 := ir.extractLsb' 12 4

/-- `ir[11:9]`: dst, or src of a store. -/
def dstField (ir : Word) : RegNum := ir.extractLsb' 9 3

/-- `ir[8:6]`: src1, base, or src of NOT. -/
def baseField (ir : Word) : RegNum := ir.extractLsb' 6 3

/-- `ir[2:0]`: src2. -/
def src2Field (ir : Word) : RegNum := ir.extractLsb' 0 3

/-- `ir[4:0]`. -/
def imm5Field (ir : Word) : BitVec 5 := ir.extractLsb' 0 5

/-- `ir[5:0]`. -/
def offset6Field (ir : Word) : BitVec 6 := ir.extractLsb' 0 6

/-- `ir[8:0]`. -/
def offset9Field (ir : Word) : BitVec 9 := ir.extractLsb' 0 9

/-- `ir[10:0]`. -/
def offset11Field (ir : Word) : BitVec 11 := ir.extractLsb' 0 11

/-- `ir[7:0]`: trapcode8. -/
def trapField (ir : Word) : Byte := ir.extractLsb' 0 8

/-- `ir[11:0]`: the bits a reserved opcode ignores. -/
def ignoredField (ir : Word) : BitVec 12 := ir.extractLsb' 0 12

/-- The service selected by a trap code (R87, R150); every other code is the fallback row (R161). -/
def decodeTrap (code : Byte) : Instr :=
  match code.toNat with
  | 0x20 => .trapGetc
  | 0x21 => .trapOut
  | 0x22 => .trapPuts
  | 0x23 => .trapIn
  | 0x24 => .trapPutsp
  | 0x25 => .trapHalt
  | _ => .trapUnrecognised code

/-- The decoder under OPCODE_MAP `m`: by `ir[15:12]` alone, then the secondary selectors of R88. It is total, since
every word has a meaning (R81, R89); bits the layouts show as constants are not looked at (D15, log 21). -/
def decode (m : OpcodeMap) (ir : Word) : Instr :=
  match opcodeOf m (opField ir) with
  | .br => .br (ir.getLsbD 11) (ir.getLsbD 10) (ir.getLsbD 9) (offset9Field ir)
  | .add =>
    if ir.getLsbD 5 then .addImm (dstField ir) (baseField ir) (imm5Field ir)
    else .addReg (dstField ir) (baseField ir) (src2Field ir)
  | .ld => .ld (dstField ir) (offset9Field ir)
  | .st => .st (dstField ir) (offset9Field ir)
  | .jsr => if ir.getLsbD 11 then .jsr (offset11Field ir) else .jsrr (baseField ir)
  | .and =>
    if ir.getLsbD 5 then .andImm (dstField ir) (baseField ir) (imm5Field ir)
    else .andReg (dstField ir) (baseField ir) (src2Field ir)
  | .ldr => .ldr (dstField ir) (baseField ir) (offset6Field ir)
  | .str => .str (dstField ir) (baseField ir) (offset6Field ir)
  | .reserved8 => .res8 (ignoredField ir)
  | .not => .not (dstField ir) (baseField ir)
  | .ldi => .ldi (dstField ir) (offset9Field ir)
  | .sti => .sti (dstField ir) (offset9Field ir)
  | .jmp => .jmp (baseField ir)
  | .reserved13 => .res13 (ignoredField ir)
  | .lea => .lea (dstField ir) (offset9Field ir)
  | .trap => decodeTrap (trapField ir)

/-! The layouts of R82, a field listed first the more significant, the constant bits as the layouts show them. -/

/-- The opcode above the twelve bits of its format. -/
def layoutWord (op : BitVec 4) (rest : BitVec 12) : Word := op ++ rest

/-- OPR, OPI, NOTF, BASEOFF and JMPF: bits 11:9, bits 8:6, and the six bits below. -/
def layoutRegs (hi mid : RegNum) (low : BitVec 6) : BitVec 12 := hi ++ mid ++ low

/-- The low six bits of OPR: mode 0, two zeros, src2. -/
def layoutOpr (src2 : RegNum) : BitVec 6 := (0 : BitVec 1) ++ (0 : BitVec 2) ++ src2

/-- The low six bits of OPI: mode 1, imm5. -/
def layoutOpi (imm5 : BitVec 5) : BitVec 6 := (1 : BitVec 1) ++ imm5

/-- PCREL: a register and offset9. -/
def layoutPcrel (r : RegNum) (offset9 : BitVec 9) : BitVec 12 := r ++ offset9

/-- BRF: n, z, p and offset9. -/
def layoutBr (n z p : Bool) (offset9 : BitVec 9) : BitVec 12 :=
  BitVec.ofBool n ++ BitVec.ofBool z ++ BitVec.ofBool p ++ offset9

/-- JSRF: mode 1, offset11. -/
def layoutJsr (offset11 : BitVec 11) : BitVec 12 := (1 : BitVec 1) ++ offset11

/-- JSRRF: mode 0, two zeros, base, six zeros. -/
def layoutJsrr (base : RegNum) : BitVec 12 := (0 : BitVec 1) ++ (0 : BitVec 2) ++ base ++ (0 : BitVec 6)

/-- TRAPF: four zeros, trapcode8. -/
def layoutTrap (code : Byte) : BitVec 12 := (0 : BitVec 4) ++ code

/-- The opcode an instruction stands under (R86). -/
def instrOpcode : Instr → Opcode
  | .br _ _ _ _ => .br
  | .addReg _ _ _ | .addImm _ _ _ => .add
  | .ld _ _ => .ld
  | .st _ _ => .st
  | .jsr _ | .jsrr _ => .jsr
  | .andReg _ _ _ | .andImm _ _ _ => .and
  | .ldr _ _ _ => .ldr
  | .str _ _ _ => .str
  | .res8 _ => .reserved8
  | .not _ _ => .not
  | .ldi _ _ => .ldi
  | .sti _ _ => .sti
  | .jmp _ => .jmp
  | .res13 _ => .reserved13
  | .lea _ _ => .lea
  | .trapGetc | .trapOut | .trapPuts | .trapIn | .trapPutsp | .trapHalt | .trapUnrecognised _ => .trap

/-- The twelve bits below the opcode: the instruction in the layout of its format (R82, R83, R87). -/
def encodeLow : Instr → BitVec 12
  | .br n z p offset9 => layoutBr n z p offset9
  | .addReg dst src1 src2 | .andReg dst src1 src2 => layoutRegs dst src1 (layoutOpr src2)
  | .addImm dst src1 imm5 | .andImm dst src1 imm5 => layoutRegs dst src1 (layoutOpi imm5)
  | .ld r offset9 | .st r offset9 | .ldi r offset9 | .sti r offset9 | .lea r offset9 => layoutPcrel r offset9
  | .jsr offset11 => layoutJsr offset11
  | .jsrr base => layoutJsrr base
  | .ldr r base offset6 | .str r base offset6 => layoutRegs r base offset6
  | .res8 ignored | .res13 ignored => ignored
  | .not dst src => layoutRegs dst src 0x3F
  | .jmp base => layoutRegs 0 base 0
  | .trapGetc => layoutTrap 0x20
  | .trapOut => layoutTrap 0x21
  | .trapPuts => layoutTrap 0x22
  | .trapIn => layoutTrap 0x23
  | .trapPutsp => layoutTrap 0x24
  | .trapHalt => layoutTrap 0x25
  | .trapUnrecognised code => layoutTrap code

/-- The encoder under OPCODE_MAP `m` (R82, R83, R86, R87). -/
def encode (m : OpcodeMap) (i : Instr) : Word := layoutWord (opcodeNumber m (instrOpcode i)) (encodeLow i)

/-- The mask of an instruction's row in the opcode table: the bits the decoder tests (R95). -/
def rowMask : Instr → Word
  | .addReg _ _ _ | .addImm _ _ _ | .andReg _ _ _ | .andImm _ _ _ => 0xF020
  | .jsr _ | .jsrr _ => 0xF800
  | .trapGetc | .trapOut | .trapPuts | .trapIn | .trapPutsp | .trapHalt => 0xF0FF
  | .br _ _ _ _ | .ld _ _ | .st _ _ | .ldr _ _ _ | .str _ _ _ | .res8 _ | .not _ _ | .ldi _ _ | .sti _ _
  | .jmp _ | .res13 _ | .lea _ _ | .trapUnrecognised _ => 0xF000

/-- The low twelve bits of the match value of an instruction's row in the opcode table: the selectors below the
opcode (R88, R95). -/
def rowLow : Instr → BitVec 12
  | .addImm _ _ _ | .andImm _ _ _ => 0x020
  | .jsr _ => 0x800
  | .trapGetc => 0x020
  | .trapOut => 0x021
  | .trapPuts => 0x022
  | .trapIn => 0x023
  | .trapPutsp => 0x024
  | .trapHalt => 0x025
  | .br _ _ _ _ | .addReg _ _ _ | .ld _ _ | .st _ _ | .jsrr _ | .andReg _ _ _ | .ldr _ _ _ | .str _ _ _ | .res8 _
  | .not _ _ | .ldi _ _ | .sti _ _ | .jmp _ | .res13 _ | .lea _ _ | .trapUnrecognised _ => 0x000

/-- The match value of an instruction's row in the opcode table, under OPCODE_MAP `m` (R95). -/
def rowMatch (m : OpcodeMap) (i : Instr) : Word := layoutWord (opcodeNumber m (instrOpcode i)) (rowLow i)

/-- `sext_N` (R12), by its formula: the field itself when its top bit is clear, else the field plus `65536 - 2^N`. -/
def sext {n : Nat} (v : BitVec n) : Word :=
  if v.msb then v.setWidth 16 + BitVec.ofNat 16 (65536 - 2 ^ n) else v.setWidth 16

/-- `zext_16` of a character (R12, R152). -/
def zext (b : Byte) : Word := b.setWidth 16

/-- What the decoder, under the default OPCODE_MAP of the table, reads from a word given as a number of `nbits` bits
(an instruction is one 16-bit word, R80). -/
def decodeTableWord (nbits w : Nat) : Option Instr :=
  if nbits ≤ 16 then some (decode opcodeMapDefault (BitVec.ofNat 16 (w % 2 ^ nbits))) else none

end Sys2Proof
end

