-- ==== Sys2Proof/Machine/Parameters.lean ====
section
/-!
DEFINITION. The values of the parameters (spec 00_scope R9): the three flag values and the defaults of the open
parameters, one definition each, so that one can be mended without another. OPCODE_MAP's default is in Decode.lean.
-/

namespace Sys2Proof.Machine

/-- COND_P (R27, R121). DESIGN CHOICE (D4, log 6): safe, no instruction reads `cond` as a number. -/
def condP : Word := 1

/-- COND_Z (R27, R121). DESIGN CHOICE (D4, log 6): safe. -/
def condZ : Word := 2

/-- COND_N (R27, R121). DESIGN CHOICE (D4, log 6): safe. -/
def condN : Word := 4

/-- Default of KBSR_ADDR. PRESUMED, the LC-3's (D2, log 7): unsafe. -/
def kbsrAddrDefault : Word := 0xFE00

/-- Default of KBDR_ADDR. PRESUMED, the LC-3's (D2, log 7): unsafe. -/
def kbdrAddrDefault : Word := 0xFE02

/-- Default of PC_RESET. PRESUMED, the LC-3's user origin (D5, log 4): unsafe. -/
def pcResetDefault : Word := 0x3000

/-- Default of COND_RESET. PRESUMED, the family's (D6, log 5): unsafe. -/
def condResetDefault : Word := condZ

/-- Default of REG_INIT. DESIGN CHOICE (D7, log 3): unsafe. -/
def regInitDefault : Word := 0

/-- Default of MEM_INIT. DESIGN CHOICE (D7, log 2): unsafe. -/
def memInitDefault : Word := 0

/-- Default of IN_PROMPT: the 19 bytes of 'Enter a character: '. PRESUMED (D8, log 9): unsafe. -/
def inPromptDefault : List Byte :=
  [0x45, 0x6E, 0x74, 0x65, 0x72, 0x20, 0x61, 0x20, 0x63, 0x68, 0x61, 0x72, 0x61, 0x63, 0x74, 0x65, 0x72, 0x3A, 0x20]

/-- Every open parameter at its default (R9). -/
def defaultConfig : Config where
  opcodeMap := opcodeMapDefault
  kbsrAddr := kbsrAddrDefault
  kbdrAddr := kbdrAddrDefault
  pcReset := pcResetDefault
  condReset := condResetDefault
  regInit := regInitDefault
  memInit := memInitDefault
  inPrompt := inPromptDefault

end Sys2Proof.Machine
end

