-- ==== Sys2Proof/Machine/State.lean ====
section
/-!
DEFINITION. The state of the machine as plain data (spec 10_state), its value after reset (R38, R230), and the
reasons for which a host operation answers no state.
-/

namespace Sys2Proof.Machine

/-- The fault record (R32): why execution ended abnormally. -/
inductive FaultRecord where
  /-- NONE. -/
  | none
  /-- The character source failed (R201). -/
  | inputError
  /-- A TRAP with an undefined code, which is recorded (R202). -/
  | unrecognizedTrapCode (code : Byte)
deriving DecidableEq, Repr

/-- A console service the core is inside of between two steps (R182, R215, R216; log 13, log 14). -/
inductive Service where
  /-- GETC, waiting for a byte. -/
  | getc
  /-- IN, its prompt written, waiting for a byte. -/
  | inChar
  /-- PUTS, next to read the cell at `a`. -/
  | puts (a : Word)
  /-- PUTSP, next to read the cell at `a`. -/
  | putsp (a : Word)
deriving DecidableEq, Repr

/-- What the character source does next (R180 to R184). -/
inductive InputEvent where
  /-- The next byte of the input sequence is there. -/
  | byte (b : Byte)
  /-- No byte is available for a while: a poll made now finds none. -/
  | quiet
  /-- The source fails (I/O error). -/
  | failure
deriving DecidableEq, Repr

/-- Memory (R36, R50): the cells that differ from MEM_INIT, by rising address. A cell is a 16-bit word, the
spec's smallest unit (R51), so an entry holds a word (log 1). -/
abbrev Memory := List (Nat × Word)

/-- The machine. The first six fields are the spec's own state (10_state); then the state the spec implies; then
the environment's two ends and the parameters, which the core's rules read. -/
structure State where
  /-- R0 to R7 (R20). -/
  regs : Vector Word 8
  /-- The program counter (R23). -/
  pc : Word
  /-- The condition register (R27). -/
  cond : Word
  /-- The `running` flag (R31). -/
  running : Bool
  /-- The fault record (R32). -/
  fault : FaultRecord
  /-- Memory, the keyboard cells among it (R33, R34, R50). -/
  mem : Memory
  /-- The service the core is inside of, if any (R216; log 13, log 14). -/
  service : Option Service
  /-- Run has been called since reset (R175, R185; log 16). -/
  hasRun : Bool
  /-- What the character source will answer, a free choice of the environment (R37, U10, U12; log 11). -/
  input : List InputEvent
  /-- The bytes the character sink has received, oldest first (R183; log 12). -/
  output : List Byte
  /-- The parameters (R9; log 10). No rule writes them. -/
  cfg : Config
deriving DecidableEq, Repr

/-- The reasons an operation could stop with a fault. There is none: the spec's two fatal errors are a NEXT state
with the fault record written (R32, R200; log 15), a wait is a NEXT state with the service recorded (R216), and
nothing else stops the core (R203). -/
inductive Fault where
deriving DecidableEq, Repr

/-- The reasons an operation answers no state. -/
inductive Refusal where
  /-- An instruction without a meaning yet. No arm of `exec` raises it: every row has its meaning. Safe. -/
  | notModelled (mnemonic : String)
  /-- `load`, for an image of fewer than two bytes, which has no origin (R177, D19). Safe: the spec gives no effect. -/
  | imageTooShort
  /-- `load`, for an image that would run past address 0xFFFF (R177, D19). Safe: the spec gives no effect. -/
  | imageTooLong
  /-- `load`, while a run is going on (R177, D19). Safe: the spec gives no effect. -/
  | loadDuringRun
  /-- `hostReset`, while a run is going on (R39, R185). Safe: the spec says that the host cannot do it. -/
  | resetDuringRun
  /-- `startRun`, for a second Run without a reset (R175, D13). Safe: the spec gives no effect. -/
  | secondRun
deriving DecidableEq, Repr

/-- The machine after reset with parameters `c` (R38, R230); an empty source and sink (log 11, log 12). -/
def State.resetOf (c : Config) : State where
  regs := Vector.replicate 8 c.regInit
  pc := c.pcReset
  cond := c.condReset
  running := false
  fault := .none
  mem := []
  service := Option.none
  hasRun := false
  input := []
  output := []
  cfg := c

/-- The machine right after reset, every parameter at its default. -/
def State.reset : State := State.resetOf defaultConfig

end Sys2Proof.Machine
end

