-- ==== Sys2Proof/Machine/Memory.lean ====
section
/-!
DEFINITION. Memory as a list of cells in one canonical form (spec 20_memory R50, R51): reading and writing one
cell. `init` is MEM_INIT, what an unlisted cell holds.
-/

namespace Sys2Proof.Machine

/-- The canonical form: addresses strictly rising and below 65536, no entry equal to `init`. -/
abbrev Memory.wf (init : Word) (m : Memory) : Prop :=
  (m.map Prod.fst).Pairwise (· < ·) ∧ ∀ e ∈ m, e.1 < 65536 ∧ e.2 ≠ init

/-- The content of the cell at `a`. -/
def Memory.get (init : Word) : Memory → Nat → Word
  | [], _ => init
  | (k, v) :: m, a => if k = a then v else Memory.get init m a

/-- The memory without an entry for `a`. -/
def Memory.erase (m : Memory) (a : Nat) : Memory := m.filter (fun e => e.1 != a)

/-- The memory with the entry `(a, v)` before the first greater address. -/
def Memory.insert : Memory → Nat → Word → Memory
  | [], a, v => [(a, v)]
  | (k, w) :: m, a, v => if a < k then (a, v) :: (k, w) :: m else (k, w) :: Memory.insert m a v

/-- The memory after `v` is stored in the cell at `a`; storing `init` removes the entry. -/
def Memory.put (init : Word) (m : Memory) (a : Nat) (v : Word) : Memory :=
  if v = init then m.erase a else (m.erase a).insert a v

end Sys2Proof.Machine
end

