-- ==== Sys2Proof/Machine/Ops.lean ====
section
/-!
DEFINITION. The named operations on the state, one per primitive of 00_scope R13: registers, the program counter,
memory cells, the console's two ends, the keyboard poll, `MemRead` and `MemWrite`, and raising a fatal error.
-/

namespace Sys2Proof.Machine

/-- `x[r]` (R20). -/
def State.reg (s : State) (r : RegNum) : Word := s.regs[r.toNat]

/-- `x[r] <- v` (R20). -/
def State.setReg (s : State) (r : RegNum) (v : Word) : State := { s with regs := s.regs.set r.toNat v }

/-- `pc <- v` (R24). -/
def State.setPc (s : State) (v : Word) : State := { s with pc := v }

/-- `cond <- v`; only `setcc` uses it (R28). -/
def State.setCond (s : State) (v : Word) : State := { s with cond := v }

/-- `running <- b` (R31). -/
def State.setRunning (s : State) (b : Bool) : State := { s with running := b }

/-- `fault <- e` (R32). -/
def State.setFault (s : State) (e : FaultRecord) : State := { s with fault := e }

/-- Enter a console service that has not completed, or leave it (R216; log 13, log 14). -/
def State.setService (s : State) (v : Option Service) : State := { s with service := v }

/-- The source after some of its events have passed. -/
def State.setInput (s : State) (es : List InputEvent) : State := { s with input := es }

/-- `memory[a]`, the cell itself, without the side effect of a read (R50). -/
def State.cell (s : State) (a : Word) : Word := Memory.get s.cfg.memInit s.mem a.toNat

/-- `memory[a] <- v` (R50). -/
def State.setCell (s : State) (a v : Word) : State := { s with mem := Memory.put s.cfg.memInit s.mem a.toNat v }

/-- Is a run going on: the test of the execution loop (R174). -/
def State.active (s : State) : Bool := s.running && s.fault == .none

/-- The answers of a console request (R181, R182). `notReady` is `None` to a poll, and to a blocking read that no
byte will come. -/
inductive ConsoleAnswer where
  | char (b : Byte)
  | notReady
  | error
deriving DecidableEq, Repr

/-- What a poll is answered by a source that will do `es`, and what the source will do after it (R181): it does
not wait (C1); a source with nothing left answers that no byte is available (D20, log 13). -/
def pollSource : List InputEvent → ConsoleAnswer × List InputEvent
  | [] => (.notReady, [])
  | .byte b :: es => (.char b, es)
  | .quiet :: es => (.notReady, es)
  | .failure :: es => (.error, es)

/-- What a blocking read is answered (R182): it waits through every quiet spell (log 27). -/
def getSource : List InputEvent → ConsoleAnswer × List InputEvent
  | [] => (.notReady, [])
  | .byte b :: es => (.char b, es)
  | .quiet :: es => getSource es
  | .failure :: es => (.error, es)

/-- `ConsolePut(b)`: the sink takes one more byte and never fails (R183; log 12). -/
def consolePut (b : Byte) (s : State) : State := { s with output := s.output ++ [b] }

/-- `ConsolePut` of each byte in order. -/
def consolePutAll (bs : List Byte) (s : State) : State := { s with output := s.output ++ bs }

/-- `raise e` (R200): the fault record is written and nothing else; `running` is left as it was. The core then
takes no further step (R174). This is the machine's whole exception entry: nothing is saved, nothing is vectored
(R206), and there is no return from it (R208). -/
def raise (e : FaultRecord) (s : State) : State := s.setFault e

/-- The words a poll answered `r` writes (R54; the exact words are D12, log 18). -/
def keyboardWrite (r : ConsoleAnswer) (s : State) : State :=
  match r with
  | .char b => (s.setCell s.cfg.kbsrAddr 0x8000).setCell s.cfg.kbdrAddr (zext b)
  | .notReady => s.setCell s.cfg.kbsrAddr 0x0000
  | .error => s

/-- A read's two ends: a word, or the source failed (R70). -/
inductive ReadResult where
  | value (v : Word) (s : State)
  | inputError (s : State)
deriving DecidableEq, Repr

/-- `MemRead(a, 1)` (R53): at KBSR_ADDR, and there only (R56), it polls first; then it answers the cell. -/
def memRead (a : Word) (s : State) : ReadResult :=
  if a = s.cfg.kbsrAddr then
    let r := pollSource s.input
    let s' := keyboardWrite r.1 (s.setInput r.2)
    if r.1 = .error then .inputError s' else .value (s'.cell a) s'
  else .value (s.cell a) s

/-- `MemWrite(a, 1, v)` (R57): the cell, and nothing else. -/
def memWrite (a v : Word) (s : State) : State := s.setCell a v

/-- What an instruction or a fetch answers. -/
abbrev Result := Host.Outcome State Fault Refusal

/-- `v <- MemRead(a, 1)` and then `k v`; if the read fails, `raise InputError` and nothing of `k` (R70, R200). -/
def withRead (a : Word) (s : State) (k : Word → State → Result) : Result :=
  match memRead a s with
  | .value v s' => k v s'
  | .inputError s' => .next (raise .inputError s')

/-- The first two lines of a step (R170): fetch through `MemRead`, then advance pc, wrapping (D10, log 20); `k`
gets the word. A failing fetch leaves pc where it was (R172). -/
def fetch (s : State) (k : Word → State → Result) : Result :=
  withRead s.pc s fun ir s' => k ir (s'.setPc (s'.pc + 1))

/-- The state in which the next step fetches and runs the word `w`: `w` is in the cell at pc and a run is going
on, inside no service (log 16). At pc = KBSR_ADDR no word can be placed, the fetch itself rewrites the cell. -/
def placeWord (w : Word) (s : State) : State :=
  { s.setCell s.pc w with running := true, fault := .none, service := Option.none, hasRun := true }

end Sys2Proof.Machine
end

