-- ==== Sys2Proof/Machine/Flags.lean ====
section
/-!
DEFINITION. The condition register (spec 10_state R27 to R30): `setcc`, writing a register with flags, and the
test of BR (41_control R120).
-/

namespace Sys2Proof.Machine

/-- The flag value of a word (R28). -/
def flagOf (v : Word) : Word := if v = 0 then condZ else if v.msb then condN else condP

/-- `setcc(v)` (R28). -/
def setcc (v : Word) (s : State) : State := s.setCond (flagOf v)

/-- `x[dst] <- v; setcc(v)`: how every flag-setting instruction ends (R29). -/
def writeWithFlags (dst : RegNum) (v : Word) (s : State) : State := setcc v (s.setReg dst v)

/-- The three condition bits of BR as the number `ir[11:9]`, n the highest (R121). -/
def nzpWord (n z p : Bool) : Word := (BitVec.ofBool n ++ BitVec.ofBool z ++ BitVec.ofBool p).setWidth 16

/-- BR's test: `(ir[11:9] AND cond) ≠ 0` (R120). -/
def branchTaken (n z p : Bool) (s : State) : Bool := nzpWord n z p &&& s.cond != 0

end Sys2Proof.Machine
end

