-- ==== Sys2Proof/Machine/Operands.lean ====
section
/-!
DEFINITION. The operand forms: the second operand of ADD and AND (spec 30_encoding R85) and the effective
addresses (42_load_store R134); and the two characters of a cell (43_trap R156). `pc` is the post-increment program counter (10_state R24); all sums wrap (R11).
-/

namespace Sys2Proof.Machine

/-- `pc + sext offset`: the PC-relative address of R134 and the target of BR and JSR (R127). -/
def pcRelative {n : Nat} (offset : BitVec n) (s : State) : Word := s.pc + sext offset

/-- `x[base] + sext offset6` (R134). -/
def baseOffset (base : RegNum) (offset6 : BitVec 6) (s : State) : Word := s.reg base + sext offset6

/-- Bits 7 to 0 of a word: the character of a PUTS cell, the first of a PUTSP cell (R156). -/
def lowByte (w : Word) : Byte := w.extractLsb' 0 8

/-- Bits 15 to 8 of a word: the second character of a PUTSP cell (R156). -/
def highByte (w : Word) : Byte := w.extractLsb' 8 8

end Sys2Proof.Machine
end

