-- ==== Sys2Proof/Machine/Control.lean ====
section
/-!
DEFINITION. BR, JMP (RET), JSR, JSRR and the two reserved opcodes (spec 41_control).
-/

namespace Sys2Proof.Machine

/-- BR (R120). -/
def execBr (n z p : Bool) (offset9 : BitVec 9) (s : State) : Result :=
  .next (if branchTaken n z p s then s.setPc (pcRelative offset9 s) else s)

/-- JMP, and RET with base R7 (R122). -/
def execJmp (base : RegNum) (s : State) : Result := .next (s.setPc (s.reg base))

/-- JSR (R123): the saved value and the target both come from the post-increment pc. -/
def execJsr (offset11 : BitVec 11) (s : State) : Result :=
  .next ((s.setReg 7 s.pc).setPc (pcRelative offset11 s))

/-- JSRR (R124): R7 is written first and the base read after, so base R7 falls through (D17, log 22). -/
def execJsrr (base : RegNum) (s : State) : Result :=
  let s' := s.setReg 7 s.pc
  .next (s'.setPc (s'.reg base))

/-- Reserved opcode 8: a no-op (R126). -/
def execRes8 (_ignored : BitVec 12) (s : State) : Result := .next s

/-- Reserved opcode 13: a no-op (R126). -/
def execRes13 (_ignored : BitVec 12) (s : State) : Result := .next s

end Sys2Proof.Machine
end

