-- ==== Sys2Proof/Machine/LoadStore.lean ====
section
/-!
DEFINITION. LD, LDI, LDR, LEA, ST, STI, STR (spec 42_load_store). Every load goes through `MemRead`, every store
through `MemWrite` (20_memory R52); a failing read raises InputError before anything is written (R70).
-/

namespace Sys2Proof.Machine

/-- LD (R135). -/
def execLd (dst : RegNum) (offset9 : BitVec 9) (s : State) : Result :=
  withRead (pcRelative offset9 s) s fun v s' => .next (writeWithFlags dst v s')

/-- LDI (R136): the pointer is read first, then the data. -/
def execLdi (dst : RegNum) (offset9 : BitVec 9) (s : State) : Result :=
  withRead (pcRelative offset9 s) s fun addr s' =>
    withRead addr s' fun v s'' => .next (writeWithFlags dst v s'')

/-- LDR (R137). -/
def execLdr (dst base : RegNum) (offset6 : BitVec 6) (s : State) : Result :=
  withRead (baseOffset base offset6 s) s fun v s' => .next (writeWithFlags dst v s')

/-- LEA (R138): no access, and the flags are set. -/
def execLea (dst : RegNum) (offset9 : BitVec 9) (s : State) : Result :=
  .next (writeWithFlags dst (pcRelative offset9 s) s)

/-- ST (R139). -/
def execSt (src : RegNum) (offset9 : BitVec 9) (s : State) : Result :=
  .next (memWrite (pcRelative offset9 s) (s.reg src) s)

/-- STI (R140): only the pointer is read through `MemRead`; the store never polls. -/
def execSti (src : RegNum) (offset9 : BitVec 9) (s : State) : Result :=
  withRead (pcRelative offset9 s) s fun addr s' => .next (memWrite addr (s'.reg src) s')

/-- STR (R141). -/
def execStr (src base : RegNum) (offset6 : BitVec 6) (s : State) : Result :=
  .next (memWrite (baseOffset base offset6 s) (s.reg src) s)

end Sys2Proof.Machine
end

