-- ==== Sys2Proof/Machine/Operate.lean ====
section
/-!
DEFINITION. ADD, AND, NOT (spec 40_operate). Both sources are read before the destination is written.
-/

namespace Sys2Proof.Machine

/-- ADD, register form (R110). -/
def execAddReg (dst src1 src2 : RegNum) (s : State) : Result :=
  .next (writeWithFlags dst (s.reg src1 + s.reg src2) s)

/-- ADD, immediate form (R111). -/
def execAddImm (dst src1 : RegNum) (imm5 : BitVec 5) (s : State) : Result :=
  .next (writeWithFlags dst (s.reg src1 + sext imm5) s)

/-- AND, register form (R112). -/
def execAndReg (dst src1 src2 : RegNum) (s : State) : Result :=
  .next (writeWithFlags dst (s.reg src1 &&& s.reg src2) s)

/-- AND, immediate form (R113): the immediate is sign-extended first. -/
def execAndImm (dst src1 : RegNum) (imm5 : BitVec 5) (s : State) : Result :=
  .next (writeWithFlags dst (s.reg src1 &&& sext imm5) s)

/-- NOT (R114). -/
def execNot (dst src : RegNum) (s : State) : Result :=
  .next (writeWithFlags dst (~~~ s.reg src) s)

end Sys2Proof.Machine
end

