-- ==== Sys2Proof/Machine/Trap.lean ====
section
/-!
DEFINITION. TRAP and the six console services (spec 43_trap). No service writes R7 or pc (R150). A service that
has not completed when its step ends (a wait for input, R182; a string longer than the whole memory, R155) is
recorded in `service`, and the next step goes on with it and fetches nothing (R151, R216; log 13, log 14).
-/

namespace Sys2Proof.Machine

/-- The read of GETC (R153). -/
def getcRead (s : State) : Result :=
  let r := getSource s.input
  let s' := s.setInput r.2
  match r.1 with
  | .char b => .next (writeWithFlags 0 (zext b) s')
  | .notReady => .next (s'.setService (some .getc))
  | .error => .next (raise .inputError s')

/-- The read and the echo of IN, after its prompt (R157). -/
def inRead (s : State) : Result :=
  let r := getSource s.input
  let s' := s.setInput r.2
  match r.1 with
  | .char b => .next (writeWithFlags 0 (zext b) (consolePut b s'))
  | .notReady => .next (s'.setService (some .inChar))
  | .error => .next (raise .inputError s')

/-- How many cells a string service visits in one step: as many as the memory has (log 14). -/
def stringFuel : Nat := 65536

/-- The loop of PUTS (R155): the terminator is a cell that is zero as a whole; the pointer wraps (D18, log 20). -/
def putsLoop : Nat → Word → State → Result
  | 0, a, s => .next (s.setService (some (.puts a)))
  | n + 1, a, s =>
    withRead a s fun w s' =>
      if w = 0 then .next s' else putsLoop n (a + 1) (consolePut (lowByte w) s')

/-- The loop of PUTSP (R158): low byte, then high byte; a zero byte in either place ends the string (C4). -/
def putspLoop : Nat → Word → State → Result
  | 0, a, s => .next (s.setService (some (.putsp a)))
  | n + 1, a, s =>
    withRead a s fun w s' =>
      if lowByte w = 0 then .next s'
      else if highByte w = 0 then .next (consolePut (lowByte w) s')
      else putspLoop n (a + 1) (consolePut (highByte w) (consolePut (lowByte w) s'))

/-- GETC (R153). -/
def execGetc (s : State) : Result := getcRead s

/-- OUT (R154). -/
def execOut (s : State) : Result := .next (consolePut (lowByte (s.reg 0)) s)

/-- PUTS (R155). -/
def execPuts (s : State) : Result := putsLoop stringFuel (s.reg 0) s

/-- IN (R157): the prompt, then the read with echo. -/
def execIn (s : State) : Result := inRead (consolePutAll s.cfg.inPrompt s)

/-- PUTSP (R158). -/
def execPutsp (s : State) : Result := putspLoop stringFuel (s.reg 0) s

/-- HALT (R160): `running <- false`, and no output. -/
def execHalt (s : State) : Result := .next (s.setRunning false)

/-- A TRAP with an undefined code (R161): it raises UnrecognizedTrapCode with the code (R202). -/
def execTrapUnrecognised (code : Byte) (s : State) : Result := .next (raise (.unrecognizedTrapCode code) s)

/-- Go on with a service begun in an earlier step (R216). -/
def resume (v : Service) (s : State) : Result :=
  let s' := s.setService Option.none
  match v with
  | .getc => getcRead s'
  | .inChar => inRead s'
  | .puts a => putsLoop stringFuel a s'
  | .putsp a => putspLoop stringFuel a s'

end Sys2Proof.Machine
end

