-- ==== Sys2Proof/Machine/Dispatch.lean ====
section
/-!
DEFINITION. The dispatch of a decoded instruction to its handler (spec 45_run_loop_and_host R170).
-/

namespace Sys2Proof.Machine

def exec (i : Instr) (s : State) : Host.Outcome State Fault Refusal :=
  match i with
  | .br n z p offset9 => Sys2Proof.Machine.execBr n z p offset9 s
  | .addReg dst src1 src2 => Sys2Proof.Machine.execAddReg dst src1 src2 s
  | .addImm dst src1 imm5 => Sys2Proof.Machine.execAddImm dst src1 imm5 s
  | .ld dst offset9 => Sys2Proof.Machine.execLd dst offset9 s
  | .st src offset9 => Sys2Proof.Machine.execSt src offset9 s
  | .jsr offset11 => Sys2Proof.Machine.execJsr offset11 s
  | .jsrr base => Sys2Proof.Machine.execJsrr base s
  | .andReg dst src1 src2 => Sys2Proof.Machine.execAndReg dst src1 src2 s
  | .andImm dst src1 imm5 => Sys2Proof.Machine.execAndImm dst src1 imm5 s
  | .ldr dst base offset6 => Sys2Proof.Machine.execLdr dst base offset6 s
  | .str src base offset6 => Sys2Proof.Machine.execStr src base offset6 s
  | .res8 ignored => Sys2Proof.Machine.execRes8 ignored s
  | .not dst src => Sys2Proof.Machine.execNot dst src s
  | .ldi dst offset9 => Sys2Proof.Machine.execLdi dst offset9 s
  | .sti src offset9 => Sys2Proof.Machine.execSti src offset9 s
  | .jmp base => Sys2Proof.Machine.execJmp base s
  | .res13 ignored => Sys2Proof.Machine.execRes13 ignored s
  | .lea dst offset9 => Sys2Proof.Machine.execLea dst offset9 s
  | .trapGetc => Sys2Proof.Machine.execGetc s
  | .trapOut => Sys2Proof.Machine.execOut s
  | .trapPuts => Sys2Proof.Machine.execPuts s
  | .trapIn => Sys2Proof.Machine.execIn s
  | .trapPutsp => Sys2Proof.Machine.execPutsp s
  | .trapHalt => Sys2Proof.Machine.execHalt s
  | .trapUnrecognised code => Sys2Proof.Machine.execTrapUnrecognised code s

end Sys2Proof.Machine
end

