-- ==== Sys2Proof/Machine/Step.lean ====
section
/-!
DEFINITION. One step of the execution loop (spec 45_run_loop_and_host R170, R174): the loop's test, then the
service the core is inside of, or a fetch and the dispatch of the decoded word.
-/

namespace Sys2Proof.Machine

/-- One trip of the loop of R174. A core that is not running, halted, or stopped by a fatal error stays as it is
(R175; log 15, log 16). -/
def step (s : State) : Host.Outcome State Fault Refusal :=
  if s.active then
    match s.service with
    | some v => resume v s
    | Option.none => fetch s fun ir s' => exec (decode s'.cfg.opcodeMap ir) s'
  else .next s

/-- `s` with the instruction of bits `w` where the next step fetches it, and the run going on (log 16). -/
def State.withFetchWord (s : State) (nbits w : Nat) : State := placeWord (BitVec.ofNat 16 (w % 2 ^ nbits)) s

end Sys2Proof.Machine
end

