-- ==== Sys2Proof/Machine/HostOps.lean ====
section
/-!
DEFINITION. What the host does to the machine (spec 45_run_loop_and_host R174 to R178, R185): reset, Load, Run.
They are the outside's operations, no part of a step.
-/

namespace Sys2Proof.Machine

/-- Reset by the host (R230): every state of the core as after reset; the environment's two ends are not the core's
and stay (R37; log 26). While a run is going on the host can touch no register or memory and cancel nothing (R39,
R185), so it is refused then (log 29). -/
def hostReset (s : State) : Result :=
  if s.active then .refused .resetDuringRun
  else .next { State.resetOf s.cfg with input := s.input, output := s.output }

/-- The word of two image bytes, big-endian (R60, R176). -/
def imageWord (hi lo : Byte) : Word := hi ++ lo

/-- The words of an image after its origin, stored from `a` on; a trailing odd byte is dropped (R176). -/
def loadWords : Word → List Byte → State → State
  | a, hi :: lo :: rest, s => loadWords (a + 1) rest (memWrite a (imageWord hi lo) s)
  | _, [_], s => s
  | _, [], s => s

/-- Load (R176), with the refusals of R177 (D19, log 17). It writes cells and nothing else; pc stays (R178). -/
def load (image : List Byte) (s : State) : Result :=
  if s.active then .refused .loadDuringRun
  else
    match image with
    | hi :: lo :: rest =>
      if rest.length / 2 ≤ 65536 - (imageWord hi lo).toNat then .next (loadWords (imageWord hi lo) rest s)
      else .refused .imageTooLong
    | [_] => .refused .imageTooShort
    | [] => .refused .imageTooShort

/-- The first line of Run: `running <- true` (R174); a second Run is refused (R175, D13, log 16). -/
def startRun (s : State) : Result :=
  if s.hasRun then .refused .secondRun else .next { s with running := true, hasRun := true }

/-- The loop of Run under fuel (R174): `while running and fault = NONE: Step()`. -/
def runLoop : Nat → State → Result
  | 0, s => .next s
  | n + 1, s =>
    if s.active then
      match step s with
      | .next t => runLoop n t
      | .fault r => .fault r
      | .refused r => .refused r
    else .next s

/-- Run (R174), at most `n` trips of the loop. The value it returns is the state's `fault`. -/
def run (n : Nat) (s : State) : Result :=
  match startRun s with
  | .next t => runLoop n t
  | .fault r => .fault r
  | .refused r => .refused r

/-- The register sequence as the host reads it after a run: R0 to R7, the program counter, the condition register;
the last two positions, 8 and 9, are for reference only (R22, D9, R175). -/
def registerSequence (s : State) : List Word := s.regs.toList ++ [s.pc, s.cond]

/-- The cause codes of the fault record (R200, D11, log 15). -/
def causeCode : FaultRecord → Nat
  | .none => 0
  | .inputError => 1
  | .unrecognizedTrapCode _ => 2

end Sys2Proof.Machine
end

