-- ==== Sys2Proof/Safety.lean ====
section
/-!
DEFINITION. The terms claims use: the status of a core (spec 60_exceptions R216), the invariant of the machine,
and what an instruction leaves unchanged, reads and writes, said in the spec's words and not by the model's
operations (but for `reg`, `cell`, `sext`, `zext`).
-/

namespace Sys2Proof.Machine

/-! ### Status -/

/-- What a core is at between two steps: the outcomes of R216, and the core before its run. -/
inductive Status where
  /-- Reset, not yet run. -/
  | idle
  /-- The next step fetches an instruction. -/
  | ready
  /-- Inside a blocking read (R182): not final. -/
  | blocked
  /-- Inside a string service longer than the memory (R155): not final. -/
  | inString
  /-- After HALT: final, good. -/
  | halted
  /-- After a fatal error: final, not a normal end. -/
  | faulted (e : FaultRecord)
deriving DecidableEq, Repr

/-- The status of a state (R174, R200, R216). -/
def State.status (s : State) : Status :=
  if s.fault ≠ .none then .faulted s.fault
  else if s.running = false then (if s.hasRun then .halted else .idle)
  else
    match s.service with
    | Option.none => .ready
    | some .getc | some .inChar => .blocked
    | some (.puts _) | some (.putsp _) => .inString

/-- A safe state: no fatal error has stopped the core. -/
def State.safe (s : State) : Prop := s.fault = .none

/-! ### The invariant -/

/-- A legal value of the condition register: exactly one of the three (R27, R30). -/
def CondLegal (c : Word) : Prop := c = condP ∨ c = condZ ∨ c = condN

/-- Parameters that meet the document's constraints (R9): the two keyboard addresses differ, COND_RESET is one of
the three flag values, OPCODE_MAP reserves 8 and 13 and uses the other fourteen values. -/
def ConfigLegal (c : Config) : Prop :=
  c.kbsrAddr ≠ c.kbdrAddr ∧ CondLegal c.condReset ∧ OpcodeMapLegal c.opcodeMap

/-- The invariant: memory is in its canonical form; the parameters and the condition register are legal (R27);
a core inside a service is in a run; a running core has been started; a fatal error leaves `running` set (R200). -/
def MachineInv (s : State) : Prop :=
  Memory.wf s.cfg.memInit s.mem ∧ ConfigLegal s.cfg ∧ CondLegal s.cond
    ∧ (s.service ≠ Option.none → s.active = true)
    ∧ (s.running = true → s.hasRun = true)
    ∧ (s.fault ≠ .none → s.running = true)

/-! ### Which instructions do what, as the spec lists them -/

/-- The instructions that call `setcc` (R29). -/
def setsFlags : Instr → Bool
  | .addReg _ _ _ | .addImm _ _ _ | .andReg _ _ _ | .andImm _ _ _ | .not _ _ | .ld _ _ | .ldi _ _ | .ldr _ _ _
  | .lea _ _ | .trapGetc | .trapIn => true
  | .br _ _ _ _ | .jmp _ | .jsr _ | .jsrr _ | .st _ _ | .sti _ _ | .str _ _ _ | .res8 _ | .res13 _
  | .trapOut | .trapPuts | .trapPutsp | .trapHalt | .trapUnrecognised _ => false

/-- The instructions that read memory or the character source, and so may meet InputError (R52, R201). -/
def readsMemoryOrSource : Instr → Bool
  | .ld _ _ | .ldi _ _ | .ldr _ _ _ | .sti _ _ | .trapGetc | .trapIn | .trapPuts | .trapPutsp => true
  | .br _ _ _ _ | .addReg _ _ _ | .addImm _ _ _ | .andReg _ _ _ | .andImm _ _ _ | .not _ _ | .lea _ _ | .jmp _
  | .jsr _ | .jsrr _ | .st _ _ | .str _ _ _ | .res8 _ | .res13 _ | .trapOut | .trapHalt
  | .trapUnrecognised _ => false

/-- The instructions that write memory through `MemWrite` (R52). -/
def storesToMemory : Instr → Bool
  | .st _ _ | .sti _ _ | .str _ _ _ => true
  | .br _ _ _ _ | .addReg _ _ _ | .addImm _ _ _ | .andReg _ _ _ | .andImm _ _ _ | .not _ _ | .ld _ _ | .ldi _ _
  | .ldr _ _ _ | .lea _ _ | .jmp _ | .jsr _ | .jsrr _ | .res8 _ | .res13 _ | .trapGetc | .trapOut | .trapPuts
  | .trapIn | .trapPutsp | .trapHalt | .trapUnrecognised _ => false

/-- The instruction is a TRAP, of any code. -/
def isTrap : Instr → Bool
  | .trapGetc | .trapOut | .trapPuts | .trapIn | .trapPutsp | .trapHalt | .trapUnrecognised _ => true
  | .br _ _ _ _ | .addReg _ _ _ | .addImm _ _ _ | .andReg _ _ _ | .andImm _ _ _ | .not _ _ | .ld _ _ | .ldi _ _
  | .ldr _ _ _ | .lea _ _ | .jmp _ | .jsr _ | .jsrr _ | .st _ _ | .sti _ _ | .str _ _ _ | .res8 _ | .res13 _ => false

/-! ### What stays -/

/-- The control state stays: `running`, `fault`, the service, the run's mark, the parameters. -/
def SameControl (s t : State) : Prop :=
  t.running = s.running ∧ t.fault = s.fault ∧ t.service = s.service ∧ t.hasRun = s.hasRun ∧ t.cfg = s.cfg

/-- Every general register stays. -/
def SameRegs (s t : State) : Prop := ∀ r, t.reg r = s.reg r

/-- Every memory cell stays. -/
def SameCells (s t : State) : Prop := ∀ a, t.cell a = s.cell a

/-- The source and the sink stay. -/
def SameConsole (s t : State) : Prop := t.input = s.input ∧ t.output = s.output

/-! ### What changes -/

/-- The flag value `setcc` gives a word, as R28 words it. -/
def SignFlag (v : Word) (c : Word) : Prop :=
  (v = 0x0000 → c = condZ) ∧ (v.msb = true → c = condN) ∧ (v ≠ 0x0000 → v.msb = false → c = condP)

/-- Register `d` holds `v`, every other register is as it was. -/
def OnlyRegWritten (d : RegNum) (v : Word) (s t : State) : Prop := t.reg d = v ∧ ∀ r, r ≠ d → t.reg r = s.reg r

/-- `x[d] <- v; setcc(v)`, nothing else of the registers, pc as the handler found it, control state kept. -/
def WritesDest (d : RegNum) (v : Word) (s t : State) : Prop :=
  OnlyRegWritten d v s t ∧ SignFlag v t.cond ∧ t.pc = s.pc ∧ SameControl s t

/-- Cell `a` holds `v`, every other cell is as it was. -/
def OnlyCellWritten (a v : Word) (s t : State) : Prop := t.cell a = v ∧ ∀ x, x ≠ a → t.cell x = s.cell x

/-- A read of `a` in `s` meets a failure of the source (R70). -/
def ReadFails (a : Word) (s : State) : Prop := a = s.cfg.kbsrAddr ∧ s.input.head? = some .failure

/-- What `MemRead(a, 1)` answers and leaves when it does not fail (R53, R54; the words at KBSR_ADDR are D12,
log 18): at any other address the cell, nothing changed; at KBSR_ADDR the word of the poll, with the byte taken. -/
def ReadEffect (a v : Word) (s t : State) : Prop :=
  (a ≠ s.cfg.kbsrAddr ∧ v = s.cell a ∧ SameCells s t ∧ t.input = s.input) ∨
  (a = s.cfg.kbsrAddr ∧ ∃ b rest, s.input = .byte b :: rest ∧ v = 0x8000 ∧ t.input = rest
      ∧ t.cell s.cfg.kbsrAddr = 0x8000 ∧ t.cell s.cfg.kbdrAddr = zext b
      ∧ ∀ x, x ≠ s.cfg.kbsrAddr → x ≠ s.cfg.kbdrAddr → t.cell x = s.cell x) ∨
  (a = s.cfg.kbsrAddr ∧ (s.input = [] ∨ s.input.head? = some .quiet) ∧ v = 0x0000 ∧ t.input = s.input.tail
      ∧ OnlyCellWritten s.cfg.kbsrAddr 0x0000 s t)

/-- `raise InputError` and nothing else (R200, R201): no register, flag, cell, output byte is changed. -/
def OnlyInputErrorRaised (s t : State) : Prop :=
  t.fault = .inputError ∧ SameRegs s t ∧ t.cond = s.cond ∧ t.pc = s.pc ∧ SameCells s t ∧ t.output = s.output
    ∧ t.running = s.running ∧ t.service = s.service ∧ t.hasRun = s.hasRun ∧ t.cfg = s.cfg

end Sys2Proof.Machine
end

