-- ==== Sys2Proof/Certificates/Slice0/Obligations.lean ====
section
/-!
DEFINITION. The statements for the provers. Each docstring names the rule of spec/ it formalises; where a clause
rests on a decision of the spec or of the model, it names the log entry (notes/assumptions). A handler's state `s`
holds the post-increment pc (R24). OPCODE_MAP is a parameter (R9, R86): statements about encodings hold for every map
`m`, and only `WrittenOutWordsDecode` is about its default (D3, log 8).
-/

open Sys2Proof Sys2Proof.Machine

/-! ### Encoding -/

/-- A few words written out from the layouts of R82 and the default numbers of R86 (log 8) decode to what they
stand for (R94, and the examples of the instruction rules). GETC's word has a set bit among the ignored ones (D15,
log 21). -/
def Obligations.WrittenOutWordsDecode : Prop :=
  decode opcodeMapDefault 0b0001_000_001_0_00_010 = .addReg 0 1 2 ∧
  decode opcodeMapDefault 0b0001_010_100_1_10100 = .addImm 2 4 0b10100 ∧
  decode opcodeMapDefault 0b0000_0_1_0_000000011 = .br false true false 3 ∧
  decode opcodeMapDefault 0b0100_1_00000000101 = .jsr 5 ∧
  decode opcodeMapDefault 0b0110_001_010_111110 = .ldr 1 2 0b111110 ∧
  decode opcodeMapDefault 0b1011_000_000000001 = .sti 0 1 ∧
  decode opcodeMapDefault 0b1100_000_111_000000 = .jmp 7 ∧
  decode opcodeMapDefault 0b1101_111111111111 = .res13 0xFFF ∧
  decode opcodeMapDefault 0b1111_0001_00100000 = .trapGetc ∧
  decode opcodeMapDefault 0b1111_0000_00100110 = .trapUnrecognised 0x26

/-- Under every legal OPCODE_MAP, decoding the encoding of a well-formed instruction gives the instruction back,
every operand at every value (R82, R83, R84, R86, R87). -/
def Obligations.DecodeOfEncodeIsIdentity : Prop :=
  ∀ (m : OpcodeMap) (i : Instr), OpcodeMapLegal m → i.wellFormed = true → decode m (encode m i) = i

/-- Under every legal OPCODE_MAP, every word decodes to a well-formed instruction whose row of the opcode table it
matches; and a row other than TRAP's fallback that the word matches is that very row: the rows are disjoint and cover
every word (R89, R95). -/
def Obligations.WordMatchesExactlyItsRow : Prop :=
  ∀ (m : OpcodeMap) (w : Word), OpcodeMapLegal m →
    (decode m w).wellFormed = true ∧ w &&& rowMask (decode m w) = rowMatch m (decode m w) ∧
    ∀ i : Instr, (∀ code, i ≠ .trapUnrecognised code) → w &&& rowMask i = rowMatch m i →
      rowMask (decode m w) = rowMask i ∧ rowMatch m (decode m w) = rowMatch m i

/-- R116: sign-extending the low `w` bits of `n` gives `n` if `w = 16`, and keeps the `w`-bit signed value. -/
def Obligations.SignExtensionKeepsSignedValue : Prop :=
  ∀ (w : Nat) (n : Word), 1 ≤ w → w ≤ 16 →
    (sext (n.setWidth w)).toInt = (n.setWidth w).toInt ∧ (w = 16 → sext (n.setWidth w) = n)

/-! ### Reset, invariant, step -/

/-- What reset leaves for any parameters, the defaults, and what a reset by the host leaves when no run is going on
(R38, R230, R185). The values are the spec's decisions D2, D3, D5, D6, D7, D11, D13 (log 2, 3, 4, 5, 7, 8, 15, 16). A
reset by the host keeps the parameters (log 10) and the environment's two ends (log 26). -/
def Obligations.ResetLeavesTheParameters : Prop :=
  (∀ c : Config, (∀ r, (State.resetOf c).reg r = c.regInit) ∧ (State.resetOf c).pc = c.pcReset ∧
    (State.resetOf c).cond = c.condReset ∧ (State.resetOf c).running = false ∧ (State.resetOf c).fault = .none ∧
    ∀ a, (State.resetOf c).cell a = c.memInit) ∧
  (∀ s : State, s.active = false → ∃ t, hostReset s = .next t ∧ (∀ r, t.reg r = s.cfg.regInit) ∧
    t.pc = s.cfg.pcReset ∧ t.cond = s.cfg.condReset ∧ t.running = false ∧ t.fault = .none ∧ t.service = none ∧
    t.hasRun = false ∧ (∀ a, t.cell a = s.cfg.memInit) ∧ SameConsole s t ∧ t.cfg = s.cfg) ∧
  (∀ r, State.reset.reg r = 0x0000) ∧ State.reset.pc = 0x3000 ∧ State.reset.cond = condZ ∧
    (∀ a, State.reset.cell a = 0x0000) ∧ State.reset.cfg.kbsrAddr = 0xFE00 ∧ State.reset.cfg.kbdrAddr = 0xFE02 ∧
    State.reset.cfg.opcodeMap = #v[.br, .add, .ld, .st, .jsr, .and, .ldr, .str, .reserved8, .not, .ldi, .sti, .jmp,
      .reserved13, .lea, .trap]

/-- The invariant holds after reset, for every legal choice of the parameters and for the defaults. -/
def Obligations.InvariantHoldsAfterReset : Prop :=
  (∀ c : Config, ConfigLegal c → MachineInv (State.resetOf c)) ∧ MachineInv State.reset

/-- Every step keeps the invariant: memory's canonical form, one of the three values in the condition register
(R27, R30), legal parameters, a service only inside a run, `running` set at a fatal error (R200). -/
def Obligations.StepKeepsInvariant : Prop :=
  ∀ s t : State, MachineInv s → step s = .next t → MachineInv t

/-- No instruction and no step stops the model: every one answers a next state. That every word has a meaning is R81,
R89 and R203. That a fatal error and a wait are next states is the model's form (log 15, log 13); and where R155 and
R216 say that PUTS never completes, a memory without a zero cell, the next state is the model's cut of the service,
inside which the core then still is (log 14). -/
def Obligations.EveryStepAnswersNextState : Prop :=
  (∀ (i : Instr) (s : State), ∃ t, exec i s = .next t) ∧ ∀ s : State, ∃ t, step s = .next t

/-- A step of a core in a run and inside no service, whose pc is not KBSR_ADDR, is `exec` of the decoded cell at
pc, with pc advanced by one, wrapping (R24, R170; the wrap of the fetch increment is D10, log 20). -/
def Obligations.StepRunsTheDecodedInstruction : Prop :=
  ∀ s : State, s.running = true → s.fault = .none → s.service = none → s.pc ≠ s.cfg.kbsrAddr →
    step s = exec (decode s.cfg.opcodeMap (s.cell s.pc)) { s with pc := s.pc + 1 }

/-- A core that is not in a run, has halted, or was stopped by a fatal error stays as it is (R174, R175; the
stutter is the model's, log 15 and log 16). -/
def Obligations.StoppedCoreStaysAsItIs : Prop :=
  ∀ s : State, s.running = false ∨ s.fault ≠ .none → step s = .next s

/-- A fetch at KBSR_ADDR polls (R172, D14 and D12: log 19, log 18): with a byte there, it takes the byte and sets KBSR
and KBDR; with none, it clears KBSR; pc advances by one (wrapping if KBSR_ADDR is 0xFFFF: D10, log 20), and the word
run is 0x8000 or 0x0000. Where OPCODE_MAP gives 8 to the reserved opcode, as the document does, and 0 to BR, as its
default does (D3, log 8), neither word does anything. When the source fails, InputError is raised and pc stays. -/
def Obligations.FetchAtKeyboardStatusPolls : Prop :=
  ∀ s : State, s.running = true → s.fault = .none → s.service = none → s.pc = s.cfg.kbsrAddr →
    s.cfg.kbsrAddr ≠ s.cfg.kbdrAddr →
    (¬ ReadFails s.pc s → ∃ v m, ReadEffect s.pc v s m ∧ (v = 0x8000 ∨ v = 0x0000) ∧ m.pc = s.pc + 1 ∧
      SameRegs s m ∧ m.cond = s.cond ∧ m.output = s.output ∧ SameControl s m ∧
      step s = exec (decode s.cfg.opcodeMap v) m ∧
      (opcodeOf s.cfg.opcodeMap 8 = .reserved8 → opcodeOf s.cfg.opcodeMap 0 = .br → step s = .next m)) ∧
    (ReadFails s.pc s → ∃ t, step s = .next t ∧ OnlyInputErrorRaised s t)

/-- The host's entry: the next step after `withFetchWord` runs exactly the word placed (R24, R170; log 16; that pc + 1
wraps is D10, log 20). -/
def Obligations.PlacedWordRunsNext : Prop :=
  ∀ (s : State) (w : Word), s.pc ≠ s.cfg.kbsrAddr →
    ∃ t, step (s.withFetchWord 16 w.toNat) = exec (decode s.cfg.opcodeMap w) t ∧ t.pc = s.pc + 1 ∧ SameRegs s t ∧
      t.cond = s.cond ∧ t.running = true ∧ t.fault = .none ∧ t.service = none ∧ OnlyCellWritten s.pc w s t ∧
      SameConsole s t ∧ t.cfg = s.cfg

/-! ### Operate instructions -/

/-- ADD, register form (40_operate, ADD; R110; that bits 4:3 are not looked at is D15, log 21). -/
def Obligations.AddRegisterForm : Prop :=
  (∀ (m : OpcodeMap) (ir : Word), opcodeOf m (ir.extractLsb' 12 4) = .add → ir.getLsbD 5 = false →
    decode m ir = .addReg (ir.extractLsb' 9 3) (ir.extractLsb' 6 3) (ir.extractLsb' 0 3)) ∧
  ∀ (dst src1 src2 : RegNum) (s : State), ∃ t, exec (.addReg dst src1 src2) s = .next t ∧
    WritesDest dst (BitVec.ofNat 16 ((s.reg src1).toNat + (s.reg src2).toNat)) s t ∧ SameCells s t ∧ SameConsole s t

/-- R111: ADD, immediate form. -/
def Obligations.AddImmediateForm : Prop :=
  (∀ (m : OpcodeMap) (ir : Word), opcodeOf m (ir.extractLsb' 12 4) = .add → ir.getLsbD 5 = true →
    decode m ir = .addImm (ir.extractLsb' 9 3) (ir.extractLsb' 6 3) (ir.extractLsb' 0 5)) ∧
  ∀ (dst src1 : RegNum) (imm5 : BitVec 5) (s : State), ∃ t, exec (.addImm dst src1 imm5) s = .next t ∧
    WritesDest dst (BitVec.ofNat 16 ((s.reg src1).toNat + (sext imm5).toNat)) s t ∧ SameCells s t ∧ SameConsole s t

/-- AND, register form (40_operate, AND; R112; that bits 4:3 are not looked at is D15, log 21). -/
def Obligations.AndRegisterForm : Prop :=
  (∀ (m : OpcodeMap) (ir : Word), opcodeOf m (ir.extractLsb' 12 4) = .and → ir.getLsbD 5 = false →
    decode m ir = .andReg (ir.extractLsb' 9 3) (ir.extractLsb' 6 3) (ir.extractLsb' 0 3)) ∧
  ∀ (dst src1 src2 : RegNum) (s : State), ∃ t, exec (.andReg dst src1 src2) s = .next t ∧
    WritesDest dst (s.reg src1 &&& s.reg src2) s t ∧ SameCells s t ∧ SameConsole s t

/-- R113: AND, immediate form; the immediate is sign-extended before the AND. -/
def Obligations.AndImmediateForm : Prop :=
  (∀ (m : OpcodeMap) (ir : Word), opcodeOf m (ir.extractLsb' 12 4) = .and → ir.getLsbD 5 = true →
    decode m ir = .andImm (ir.extractLsb' 9 3) (ir.extractLsb' 6 3) (ir.extractLsb' 0 5)) ∧
  ∀ (dst src1 : RegNum) (imm5 : BitVec 5) (s : State), ∃ t, exec (.andImm dst src1 imm5) s = .next t ∧
    WritesDest dst (s.reg src1 &&& sext imm5) s t ∧ SameCells s t ∧ SameConsole s t

/-- NOT: 65535 minus the source (40_operate, NOT; R114; that bits 5:0 are not looked at is D15, log 21). -/
def Obligations.NotComplements : Prop :=
  (∀ (m : OpcodeMap) (ir : Word), opcodeOf m (ir.extractLsb' 12 4) = .not →
    decode m ir = .not (ir.extractLsb' 9 3) (ir.extractLsb' 6 3)) ∧
  ∀ (dst src : RegNum) (s : State), ∃ t, exec (.not dst src) s = .next t ∧
    WritesDest dst (BitVec.ofNat 16 (65535 - (s.reg src).toNat)) s t ∧ SameCells s t ∧ SameConsole s t

/-- NOT followed by ADD #1 negates; 0x8000 gives 0x8000 (R115, its derived clause). -/
def Obligations.NotThenAddOneNegates : Prop :=
  ∀ (r : RegNum) (s : State), ∃ t u, exec (.not r r) s = .next t ∧ exec (.addImm r r 1) t = .next u ∧
    u.reg r = 0 - s.reg r ∧ (s.reg r = 0x8000 → u.reg r = 0x8000)

/-! ### Control transfer -/

/-- R120: BR. The branch is taken when the condition bits, as the number 4n + 2z + p, AND the condition register
are not zero; where the register is legal, when a named condition holds. -/
def Obligations.BranchTakenWhenConditionMet : Prop :=
  (∀ (m : OpcodeMap) (ir : Word), opcodeOf m (ir.extractLsb' 12 4) = .br →
    decode m ir = .br (ir.getLsbD 11) (ir.getLsbD 10) (ir.getLsbD 9) (ir.extractLsb' 0 9)) ∧
  ∀ (n z p : Bool) (offset9 : BitVec 9) (s : State), ∃ t, exec (.br n z p offset9) s = .next t ∧
    (BitVec.ofNat 16 (4 * n.toNat + 2 * z.toNat + p.toNat) &&& s.cond ≠ 0 → t.pc = s.pc + sext offset9) ∧
    (BitVec.ofNat 16 (4 * n.toNat + 2 * z.toNat + p.toNat) &&& s.cond = 0 → t.pc = s.pc) ∧
    (CondLegal s.cond →
      (BitVec.ofNat 16 (4 * n.toNat + 2 * z.toNat + p.toNat) &&& s.cond ≠ 0 ↔
        (n = true ∧ s.cond = condN) ∨ (z = true ∧ s.cond = condZ) ∨ (p = true ∧ s.cond = condP))) ∧
    SameRegs s t ∧ t.cond = s.cond ∧ SameCells s t ∧ SameConsole s t ∧ SameControl s t

/-- JMP, and RET with base R7 (41_control, JMP and RET; R122; that bits 11:9 and 5:0 are not looked at is D15,
log 21). -/
def Obligations.JumpGoesToTheBaseRegister : Prop :=
  (∀ (m : OpcodeMap) (ir : Word), opcodeOf m (ir.extractLsb' 12 4) = .jmp → decode m ir = .jmp (ir.extractLsb' 6 3)) ∧
  ∀ (base : RegNum) (s : State), ∃ t, exec (.jmp base) s = .next t ∧ t.pc = s.reg base ∧
    SameRegs s t ∧ t.cond = s.cond ∧ SameCells s t ∧ SameConsole s t ∧ SameControl s t

/-- R123: JSR saves the post-increment pc in R7 and jumps relative to it; the flags stay. -/
def Obligations.JsrSavesPcAndJumps : Prop :=
  (∀ (m : OpcodeMap) (ir : Word), opcodeOf m (ir.extractLsb' 12 4) = .jsr → ir.getLsbD 11 = true →
    decode m ir = .jsr (ir.extractLsb' 0 11)) ∧
  ∀ (offset11 : BitVec 11) (s : State), ∃ t, exec (.jsr offset11) s = .next t ∧
    OnlyRegWritten 7 s.pc s t ∧ t.pc = s.pc + sext offset11 ∧
    t.cond = s.cond ∧ SameCells s t ∧ SameConsole s t ∧ SameControl s t

/-- JSRR (41_control, JSR and JSRR; R124). R7 is written before the base is read, so base R7 falls through: D17,
log 22; the unread bits are D15, log 21. -/
def Obligations.JsrrSavesPcThenReadsBase : Prop :=
  (∀ (m : OpcodeMap) (ir : Word), opcodeOf m (ir.extractLsb' 12 4) = .jsr → ir.getLsbD 11 = false →
    decode m ir = .jsrr (ir.extractLsb' 6 3)) ∧
  ∀ (base : RegNum) (s : State), ∃ t, exec (.jsrr base) s = .next t ∧
    OnlyRegWritten 7 s.pc s t ∧ (base ≠ 7 → t.pc = s.reg base) ∧ (base = 7 → t.pc = s.pc) ∧
    t.cond = s.cond ∧ SameCells s t ∧ SameConsole s t ∧ SameControl s t

/-- A call by JSR or JSRR and a RET come back to the instruction after the call (R122 to R125). -/
def Obligations.ReturnComesBackAfterTheCall : Prop :=
  ∀ s : State,
    (∀ offset11, ∃ t u, exec (.jsr offset11) s = .next t ∧ exec (.jmp 7) t = .next u ∧ u.pc = s.pc) ∧
    ∀ base, ∃ t u, exec (.jsrr base) s = .next t ∧ exec (.jmp 7) t = .next u ∧ u.pc = s.pc

/-- The reserved opcodes, values 8 and 13 with any low twelve bits, do nothing (41_control, Reserved opcodes; R126).
Under a legal OPCODE_MAP the whole step is the fetch and the increment (45 section 1), which wraps at 0xFFFF (D10,
log 20). -/
def Obligations.ReservedOpcodesDoNothing : Prop :=
  (∀ (ignored : BitVec 12) (s : State), exec (.res8 ignored) s = .next s ∧ exec (.res13 ignored) s = .next s) ∧
  ∀ s : State, (s.cell s.pc).extractLsb' 12 4 = 8 ∨ (s.cell s.pc).extractLsb' 12 4 = 13 →
    OpcodeMapLegal s.cfg.opcodeMap →
    s.running = true → s.fault = .none → s.service = none → s.pc ≠ s.cfg.kbsrAddr →
    step s = .next { s with pc := s.pc + 1 }

/-! ### Loads and stores -/

/-- LD (42_load_store, Loads; R135; what a read at KBSR_ADDR leaves is D12, log 18). -/
def Obligations.LoadPcRelative : Prop :=
  (∀ (m : OpcodeMap) (ir : Word), opcodeOf m (ir.extractLsb' 12 4) = .ld →
    decode m ir = .ld (ir.extractLsb' 9 3) (ir.extractLsb' 0 9)) ∧
  ∀ (dst : RegNum) (offset9 : BitVec 9) (s : State), s.cfg.kbsrAddr ≠ s.cfg.kbdrAddr →
    (¬ ReadFails (s.pc + sext offset9) s → ∃ v t, exec (.ld dst offset9) s = .next t ∧
      ReadEffect (s.pc + sext offset9) v s t ∧ WritesDest dst v s t ∧ t.output = s.output) ∧
    (ReadFails (s.pc + sext offset9) s → ∃ t, exec (.ld dst offset9) s = .next t ∧ OnlyInputErrorRaised s t)

/-- LDR (42_load_store, Loads; R137; what a read at KBSR_ADDR leaves is D12, log 18). -/
def Obligations.LoadBasePlusOffset : Prop :=
  (∀ (m : OpcodeMap) (ir : Word), opcodeOf m (ir.extractLsb' 12 4) = .ldr →
    decode m ir = .ldr (ir.extractLsb' 9 3) (ir.extractLsb' 6 3) (ir.extractLsb' 0 6)) ∧
  ∀ (dst base : RegNum) (offset6 : BitVec 6) (s : State), s.cfg.kbsrAddr ≠ s.cfg.kbdrAddr →
    (¬ ReadFails (s.reg base + sext offset6) s → ∃ v t, exec (.ldr dst base offset6) s = .next t ∧
      ReadEffect (s.reg base + sext offset6) v s t ∧ WritesDest dst v s t ∧ t.output = s.output) ∧
    (ReadFails (s.reg base + sext offset6) s → ∃ t, exec (.ldr dst base offset6) s = .next t ∧ OnlyInputErrorRaised s t)

/-- LDI (42_load_store, Loads; R136; what a read at KBSR_ADDR leaves is D12, log 18): the pointer `p` is read
first, leaving `m`; then the data. Where the second read fails, what the first left stays. Where neither read is at
KBSR_ADDR, the register gets the cell the pointer cell addresses. -/
def Obligations.LoadIndirect : Prop :=
  (∀ (m : OpcodeMap) (ir : Word), opcodeOf m (ir.extractLsb' 12 4) = .ldi →
    decode m ir = .ldi (ir.extractLsb' 9 3) (ir.extractLsb' 0 9)) ∧
  ∀ (dst : RegNum) (offset9 : BitVec 9) (s : State), s.cfg.kbsrAddr ≠ s.cfg.kbdrAddr →
    (¬ ReadFails (s.pc + sext offset9) s → ∃ p m, ReadEffect (s.pc + sext offset9) p s m ∧ SameRegs s m ∧
      m.cond = s.cond ∧ m.pc = s.pc ∧ m.output = s.output ∧ SameControl s m ∧
      (¬ ReadFails p m → ∃ v t, exec (.ldi dst offset9) s = .next t ∧
        ReadEffect p v m t ∧ WritesDest dst v s t ∧ t.output = s.output) ∧
      (ReadFails p m → ∃ t, exec (.ldi dst offset9) s = .next t ∧ OnlyInputErrorRaised m t)) ∧
    (s.pc + sext offset9 ≠ s.cfg.kbsrAddr → s.cell (s.pc + sext offset9) ≠ s.cfg.kbsrAddr →
      ∃ t, exec (.ldi dst offset9) s = .next t ∧ WritesDest dst (s.cell (s.cell (s.pc + sext offset9))) s t ∧
        SameCells s t ∧ SameConsole s t) ∧
    (ReadFails (s.pc + sext offset9) s → ∃ t, exec (.ldi dst offset9) s = .next t ∧ OnlyInputErrorRaised s t)

/-- R138: LEA computes the address, makes no access (no poll either) and sets the flags. -/
def Obligations.LeaComputesTheAddress : Prop :=
  (∀ (m : OpcodeMap) (ir : Word), opcodeOf m (ir.extractLsb' 12 4) = .lea →
    decode m ir = .lea (ir.extractLsb' 9 3) (ir.extractLsb' 0 9)) ∧
  ∀ (dst : RegNum) (offset9 : BitVec 9) (s : State), ∃ t, exec (.lea dst offset9) s = .next t ∧
    WritesDest dst (s.pc + sext offset9) s t ∧ SameCells s t ∧ SameConsole s t

/-- R139: ST stores the register at pc + offset9; the flags stay, nothing is polled. -/
def Obligations.StorePcRelative : Prop :=
  (∀ (m : OpcodeMap) (ir : Word), opcodeOf m (ir.extractLsb' 12 4) = .st →
    decode m ir = .st (ir.extractLsb' 9 3) (ir.extractLsb' 0 9)) ∧
  ∀ (src : RegNum) (offset9 : BitVec 9) (s : State), ∃ t, exec (.st src offset9) s = .next t ∧
    OnlyCellWritten (s.pc + sext offset9) (s.reg src) s t ∧
    SameRegs s t ∧ t.cond = s.cond ∧ t.pc = s.pc ∧ SameConsole s t ∧ SameControl s t

/-- R141: STR stores the register at base + offset6; the flags and both registers stay, nothing is polled. -/
def Obligations.StoreBasePlusOffset : Prop :=
  (∀ (m : OpcodeMap) (ir : Word), opcodeOf m (ir.extractLsb' 12 4) = .str →
    decode m ir = .str (ir.extractLsb' 9 3) (ir.extractLsb' 6 3) (ir.extractLsb' 0 6)) ∧
  ∀ (src base : RegNum) (offset6 : BitVec 6) (s : State), ∃ t, exec (.str src base offset6) s = .next t ∧
    OnlyCellWritten (s.reg base + sext offset6) (s.reg src) s t ∧
    SameRegs s t ∧ t.cond = s.cond ∧ t.pc = s.pc ∧ SameConsole s t ∧ SameControl s t

/-- STI (42_load_store, Stores; R140; what a read at KBSR_ADDR leaves is D12, log 18): the pointer `p` is read,
leaving `m`; then the register is stored at `p`. Where the pointer's read fails, nothing is stored. -/
def Obligations.StoreIndirect : Prop :=
  (∀ (m : OpcodeMap) (ir : Word), opcodeOf m (ir.extractLsb' 12 4) = .sti →
    decode m ir = .sti (ir.extractLsb' 9 3) (ir.extractLsb' 0 9)) ∧
  ∀ (src : RegNum) (offset9 : BitVec 9) (s : State), s.cfg.kbsrAddr ≠ s.cfg.kbdrAddr →
    (¬ ReadFails (s.pc + sext offset9) s → ∃ p m t, exec (.sti src offset9) s = .next t ∧
      ReadEffect (s.pc + sext offset9) p s m ∧ OnlyCellWritten p (s.reg src) m t ∧ t.input = m.input ∧
      SameRegs s t ∧ t.cond = s.cond ∧ t.pc = s.pc ∧ t.output = s.output ∧ SameControl s t) ∧
    (ReadFails (s.pc + sext offset9) s → ∃ t, exec (.sti src offset9) s = .next t ∧ OnlyInputErrorRaised s t)

/-- R57: MemWrite stores one cell, whatever the address; no side effect, no failure. -/
def Obligations.MemWriteStoresUnconditionally : Prop :=
  ∀ (a v : Word) (s : State), OnlyCellWritten a v s (memWrite a v s) ∧ SameRegs s (memWrite a v s) ∧
    (memWrite a v s).cond = s.cond ∧ (memWrite a v s).pc = s.pc ∧ SameConsole s (memWrite a v s) ∧
    SameControl s (memWrite a v s)

/-- MemRead (20_memory; R53, R54, R70; the words of the poll are D12, log 18): its value and what it leaves. -/
def Obligations.MemReadPollsOnlyAtKeyboardStatus : Prop :=
  ∀ (a : Word) (s : State), s.cfg.kbsrAddr ≠ s.cfg.kbdrAddr →
    (¬ ReadFails a s → ∃ v t, memRead a s = .value v t ∧ ReadEffect a v s t ∧ SameRegs s t ∧ t.cond = s.cond ∧
      t.pc = s.pc ∧ t.output = s.output ∧ SameControl s t) ∧
    (ReadFails a s → ∃ t, memRead a s = .inputError t ∧ SameCells s t ∧ SameRegs s t ∧ t.cond = s.cond ∧
      t.pc = s.pc ∧ t.output = s.output ∧ SameControl s t)

/-- Round trip (20_memory section 2; R58): a read of the cell just written answers the value written, but at
KBSR_ADDR, where it answers 0x8000 or 0x0000 whatever was written (D12, log 18), or fails. -/
def Obligations.ReadAfterWriteRoundTrip : Prop :=
  ∀ (a v : Word) (s : State), s.cfg.kbsrAddr ≠ s.cfg.kbdrAddr →
    (a ≠ s.cfg.kbsrAddr → memRead a (memWrite a v s) = .value v (memWrite a v s)) ∧
    (a = s.cfg.kbsrAddr → ∃ t, memRead a (memWrite a v s) = .value 0x8000 t ∨
      memRead a (memWrite a v s) = .value 0x0000 t ∨ memRead a (memWrite a v s) = .inputError t)

/-- A store is seen by the very next fetch (20_memory section 8; R69): a word stored by ST in the cell pc
addresses is the instruction the next step runs (that pc + 1 wraps is D10, log 20). -/
def Obligations.StoreIsSeenByTheNextFetch : Prop :=
  ∀ (src : RegNum) (s : State), s.running = true → s.fault = .none → s.service = none → s.pc ≠ s.cfg.kbsrAddr →
    ∃ t, exec (.st src 0) s = .next t ∧ step t = exec (decode s.cfg.opcodeMap (s.reg src)) { t with pc := s.pc + 1 }

/-! ### TRAP -/

/-- GETC (43_trap; R153; the zero extension is D12, log 18; that bits 11:8 are not looked at is D15, log 21): it waits
through every quiet spell (log 27); then the byte goes to R0 with its flags; a failure raises InputError. The spells
and that event are taken from the source (log 11, log 23) and nothing else is. -/
def Obligations.GetcReadsOneByte : Prop :=
  (∀ (m : OpcodeMap) (ir : Word), opcodeOf m (ir.extractLsb' 12 4) = .trap → ir.extractLsb' 0 8 = 0x20 →
    decode m ir = .trapGetc) ∧
  ∀ (k : Nat) (rest : List InputEvent) (s : State),
    (∀ b, s.input = List.replicate k .quiet ++ .byte b :: rest → ∃ t, exec .trapGetc s = .next t ∧
      WritesDest 0 (zext b) s t ∧ SameCells s t ∧ t.input = rest ∧ t.output = s.output) ∧
    (s.input = List.replicate k .quiet ++ .failure :: rest → ∃ t, exec .trapGetc s = .next t ∧ OnlyInputErrorRaised s t)

/-- OUT writes the low byte of R0 and changes nothing else (43_trap; R154; that bits 11:8 are not looked at is D15,
log 21; the sink as a list is log 12). -/
def Obligations.OutWritesLowByte : Prop :=
  (∀ (m : OpcodeMap) (ir : Word), opcodeOf m (ir.extractLsb' 12 4) = .trap → ir.extractLsb' 0 8 = 0x21 →
    decode m ir = .trapOut) ∧
  ∀ s : State, exec .trapOut s = .next { s with output := s.output ++ [(s.reg 0).extractLsb' 0 8] }

/-- PUTS (43_trap; R155; that bits 11:8 are not looked at is D15, log 21), in one instruction. A string of `n` non-zero
cells and a zero cell, none of them at KBSR_ADDR, is written one low byte a cell, and nothing else changes. A string
that reaches KBSR_ADDR after `n` cells polls there (D14, log 19; the words are D12, log 18): with no byte there the
cell reads zero and the string stops; with a byte it reads 0x8000, so that 0x00 is written and the string goes on, to
`j` more cells of the memory `m` the poll left and a zero cell. The pointer wraps (D18, log 20). The string is shorter
than the memory, since a longer one goes on in the next step (log 14). -/
def Obligations.PutsWritesLowBytes : Prop :=
  (∀ (m : OpcodeMap) (ir : Word), opcodeOf m (ir.extractLsb' 12 4) = .trap → ir.extractLsb' 0 8 = 0x22 →
    decode m ir = .trapPuts) ∧
  (∀ (n : Nat) (s : State), n < 65536 →
    (∀ k, k < n → s.cell (s.reg 0 + BitVec.ofNat 16 k) ≠ 0x0000) → s.cell (s.reg 0 + BitVec.ofNat 16 n) = 0x0000 →
    (∀ k, k ≤ n → s.reg 0 + BitVec.ofNat 16 k ≠ s.cfg.kbsrAddr) →
    exec .trapPuts s = .next { s with
      output := s.output ++ (List.range n).map (fun k => (s.cell (s.reg 0 + BitVec.ofNat 16 k)).extractLsb' 0 8) }) ∧
  ∀ (n : Nat) (s : State), n < 65536 → s.cfg.kbsrAddr ≠ s.cfg.kbdrAddr →
    (∀ k, k < n → s.cell (s.reg 0 + BitVec.ofNat 16 k) ≠ 0x0000 ∧ s.reg 0 + BitVec.ofNat 16 k ≠ s.cfg.kbsrAddr) →
    s.reg 0 + BitVec.ofNat 16 n = s.cfg.kbsrAddr →
    (s.input = [] ∨ s.input.head? = some .quiet → ∃ t, exec .trapPuts s = .next t ∧
      ReadEffect s.cfg.kbsrAddr 0x0000 s t ∧ SameRegs s t ∧ t.cond = s.cond ∧ t.pc = s.pc ∧ SameControl s t ∧
      t.output = s.output ++
        (List.range n).map (fun k => (s.cell (s.reg 0 + BitVec.ofNat 16 k)).extractLsb' 0 8)) ∧
    ∀ b rest, s.input = .byte b :: rest → ∃ m, ReadEffect s.cfg.kbsrAddr 0x8000 s m ∧
      SameRegs s m ∧ m.cond = s.cond ∧ m.pc = s.pc ∧ m.output = s.output ∧ SameControl s m ∧
      ∀ j, n + 1 + j < 65536 → (∀ k, k < j → m.cell (s.cfg.kbsrAddr + BitVec.ofNat 16 (k + 1)) ≠ 0x0000) →
        m.cell (s.cfg.kbsrAddr + BitVec.ofNat 16 (j + 1)) = 0x0000 →
        exec .trapPuts s = .next { m with
          output := s.output ++
            (List.range n).map (fun k => (s.cell (s.reg 0 + BitVec.ofNat 16 k)).extractLsb' 0 8) ++ [0x00] ++
            (List.range j).map (fun k => (m.cell (s.cfg.kbsrAddr + BitVec.ofNat 16 (k + 1))).extractLsb' 0 8) }

/-- PUTS over a failing keyboard (43_trap; R155, R201): the string reaches KBSR_ADDR after `n` non-zero cells and the
source fails; the `n` bytes stay written, InputError is raised, nothing else changes (D14, log 19; the pointer wraps,
D18, log 20). -/
def Obligations.PutsKeepsOutputAtInputError : Prop :=
  ∀ (n : Nat) (s : State), n < 65536 →
    (∀ k, k < n → s.cell (s.reg 0 + BitVec.ofNat 16 k) ≠ 0x0000 ∧ s.reg 0 + BitVec.ofNat 16 k ≠ s.cfg.kbsrAddr) →
    s.reg 0 + BitVec.ofNat 16 n = s.cfg.kbsrAddr → s.input.head? = some .failure →
    ∃ t, exec .trapPuts s = .next t ∧ OnlyInputErrorRaised { s with
      output := s.output ++ (List.range n).map (fun k => (s.cell (s.reg 0 + BitVec.ofNat 16 k)).extractLsb' 0 8) } t

/-- IN (43_trap; R157; the zero extension is D12, log 18; that bits 11:8 are not looked at is D15, log 21; passing over
quiet spells is log 27): the prompt, the wait, the echo, the byte in R0 with its
flags; at a failure the prompt stays written and InputError is raised (C3). -/
def Obligations.InPromptsReadsAndEchoes : Prop :=
  (∀ (m : OpcodeMap) (ir : Word), opcodeOf m (ir.extractLsb' 12 4) = .trap → ir.extractLsb' 0 8 = 0x23 →
    decode m ir = .trapIn) ∧
  ∀ (k : Nat) (rest : List InputEvent) (s : State),
    (∀ b, s.input = List.replicate k .quiet ++ .byte b :: rest → ∃ t, exec .trapIn s = .next t ∧
      WritesDest 0 (zext b) s t ∧ SameCells s t ∧ t.input = rest ∧ t.output = s.output ++ s.cfg.inPrompt ++ [b]) ∧
    (s.input = List.replicate k .quiet ++ .failure :: rest → ∃ t, exec .trapIn s = .next t ∧
      OnlyInputErrorRaised { s with output := s.output ++ s.cfg.inPrompt } t)

/-- PUTSP (43_trap; R156, R158; that bits 11:8 are not looked at is D15, log 21): `n` cells of two non-zero bytes, then
a cell with a zero byte, none at KBSR_ADDR: each cell's low byte then its high byte are written, and of the last cell
the low byte unless it is zero (C4). The pointer wraps (D18, log 20). A string that reaches KBSR_ADDR is
`PutspStopsAtKeyboardStatus`. -/
def Obligations.PutspWritesPackedBytes : Prop :=
  (∀ (m : OpcodeMap) (ir : Word), opcodeOf m (ir.extractLsb' 12 4) = .trap → ir.extractLsb' 0 8 = 0x24 →
    decode m ir = .trapPutsp) ∧
  ∀ (n : Nat) (s : State), n < 65536 →
    (∀ k, k < n → (s.cell (s.reg 0 + BitVec.ofNat 16 k)).extractLsb' 0 8 ≠ 0 ∧
      (s.cell (s.reg 0 + BitVec.ofNat 16 k)).extractLsb' 8 8 ≠ 0) →
    ((s.cell (s.reg 0 + BitVec.ofNat 16 n)).extractLsb' 0 8 = 0 ∨
      (s.cell (s.reg 0 + BitVec.ofNat 16 n)).extractLsb' 8 8 = 0) →
    (∀ k, k ≤ n → s.reg 0 + BitVec.ofNat 16 k ≠ s.cfg.kbsrAddr) →
    exec .trapPutsp s = .next { s with
      output := s.output ++ ((List.range n).flatMap (fun k => [(s.cell (s.reg 0 + BitVec.ofNat 16 k)).extractLsb' 0 8,
        (s.cell (s.reg 0 + BitVec.ofNat 16 k)).extractLsb' 8 8])) ++
      (if (s.cell (s.reg 0 + BitVec.ofNat 16 n)).extractLsb' 0 8 = 0 then []
        else [(s.cell (s.reg 0 + BitVec.ofNat 16 n)).extractLsb' 0 8]) }

/-- PUTSP over the keyboard (43_trap; R158, R201): a string that reaches KBSR_ADDR after `n` cells of two non-zero bytes
polls there (D14, log 19). The poll's word has a zero low byte (D12, log 18), so the string stops with the `2n` bytes
written; where the source fails they stay written and InputError is raised. Nothing else changes. The pointer wraps
(D18, log 20). -/
def Obligations.PutspStopsAtKeyboardStatus : Prop :=
  ∀ (n : Nat) (s : State), n < 65536 → s.cfg.kbsrAddr ≠ s.cfg.kbdrAddr →
    (∀ k, k < n → (s.cell (s.reg 0 + BitVec.ofNat 16 k)).extractLsb' 0 8 ≠ 0 ∧
      (s.cell (s.reg 0 + BitVec.ofNat 16 k)).extractLsb' 8 8 ≠ 0 ∧ s.reg 0 + BitVec.ofNat 16 k ≠ s.cfg.kbsrAddr) →
    s.reg 0 + BitVec.ofNat 16 n = s.cfg.kbsrAddr →
    (¬ ReadFails s.cfg.kbsrAddr s → ∃ v t, exec .trapPutsp s = .next t ∧ ReadEffect s.cfg.kbsrAddr v s t ∧
      SameRegs s t ∧ t.cond = s.cond ∧ t.pc = s.pc ∧ SameControl s t ∧
      t.output = s.output ++ (List.range n).flatMap (fun k =>
        [(s.cell (s.reg 0 + BitVec.ofNat 16 k)).extractLsb' 0 8,
          (s.cell (s.reg 0 + BitVec.ofNat 16 k)).extractLsb' 8 8])) ∧
    (ReadFails s.cfg.kbsrAddr s → ∃ t, exec .trapPutsp s = .next t ∧ OnlyInputErrorRaised { s with
      output := s.output ++ (List.range n).flatMap (fun k =>
        [(s.cell (s.reg 0 + BitVec.ofNat 16 k)).extractLsb' 0 8,
          (s.cell (s.reg 0 + BitVec.ofNat 16 k)).extractLsb' 8 8]) } t)

/-- PUTSP always ends within its one instruction (R151, R158): no memory is without a zero byte for it, since the
cell at KBSR_ADDR reads 0x8000 or 0x0000 (D12 and D14: log 18, log 19), and since a string from above KBSR_ADDR comes
to it by the pointer's wrap at 0xFFFF (D18, log 20). -/
def Obligations.PutspEndsInOneInstruction : Prop :=
  ∀ s : State, s.cfg.kbsrAddr ≠ s.cfg.kbdrAddr → ∃ t, exec .trapPutsp s = .next t ∧ t.service = s.service

/-- HALT clears `running` and changes nothing else (43_trap; R160; that bits 11:8 are not looked at is D15, log 21).
The next step fetches nothing and leaves the state as it is, which is the model's stutter (log 15, log 16). -/
def Obligations.HaltEndsTheRun : Prop :=
  (∀ (m : OpcodeMap) (ir : Word), opcodeOf m (ir.extractLsb' 12 4) = .trap → ir.extractLsb' 0 8 = 0x25 →
    decode m ir = .trapHalt) ∧
  ∀ s : State, exec .trapHalt s = .next { s with running := false } ∧
    step { s with running := false } = .next { s with running := false }

/-- A TRAP whose code is none of the six raises UnrecognizedTrapCode with the code and changes nothing else (43_trap;
R161; that bits 11:8 are not looked at is D15, log 21). The core takes no further step: step leaves the state as it
is, which is the model's stutter (log 15). -/
def Obligations.UnrecognisedTrapIsFatal : Prop :=
  (∀ (m : OpcodeMap) (ir : Word), opcodeOf m (ir.extractLsb' 12 4) = .trap →
    ¬ (0x20 ≤ (ir.extractLsb' 0 8).toNat ∧ (ir.extractLsb' 0 8).toNat ≤ 0x25) →
    decode m ir = .trapUnrecognised (ir.extractLsb' 0 8)) ∧
  ∀ (code : Byte) (s : State),
    exec (.trapUnrecognised code) s = .next { s with fault := .unrecognizedTrapCode code } ∧
    step { s with fault := .unrecognizedTrapCode code } = .next { s with fault := .unrecognizedTrapCode code }

/-- A blocking read of a source that will bring no byte leaves the core blocked, inside the service, IN's prompt
written; every further step leaves it so (R182, R216; that the end of input blocks is D20, log 13). -/
def Obligations.BlockedReadStaysBlocked : Prop :=
  ∀ s : State, s.running = true → s.fault = .none → s.service = none → (∀ e ∈ s.input, e = .quiet) →
    (∃ t, exec .trapGetc s = .next t ∧ t = { s with input := [], service := some .getc } ∧
      t.status = .blocked ∧ step t = .next t) ∧
    ∃ t, exec .trapIn s = .next t ∧
      t = { s with input := [], output := s.output ++ s.cfg.inPrompt, service := some .inChar } ∧
      t.status = .blocked ∧ step t = .next t

/-- A blocked core completes its instruction when a byte is there (R182, R216; log 13): GETC puts it zero-extended in
R0 (D12, log 18), IN echoes it too, without a second prompt; both leave the service, and no fetch is made. -/
def Obligations.BlockedReadCompletesOnAByte : Prop :=
  ∀ (b : Byte) (rest : List InputEvent) (s : State), s.running = true → s.fault = .none → s.input = .byte b :: rest →
    (s.service = some .getc → ∃ t, step s = .next t ∧ WritesDest 0 (zext b) { s with service := none } t ∧
      SameCells s t ∧ t.input = rest ∧ t.output = s.output) ∧
    (s.service = some .inChar → ∃ t, step s = .next t ∧ WritesDest 0 (zext b) { s with service := none } t ∧
      SameCells s t ∧ t.input = rest ∧ t.output = s.output ++ [b])

/-- TRAP saves no return address and changes no register but R0, which only GETC and IN write (R21, R150). -/
def Obligations.TrapWritesNoRegisterButR0 : Prop :=
  ∀ (i : Instr) (s t : State),
    isTrap i = true → exec i s = .next t → t.pc = s.pc ∧ (∀ r, r ≠ 0 → t.reg r = s.reg r) ∧
      (i ≠ .trapGetc → i ≠ .trapIn → t.reg 0 = s.reg 0)

/-! ### Rules about the whole machine -/

/-- R28: `setcc` by its three cases, and that nothing else changes the condition register. -/
def Obligations.SetccIsTheOnlyFlagWriter : Prop :=
  (∀ (v : Word) (s : State), SignFlag v (setcc v s).cond) ∧
  (∀ v : Word, (v = 0x0000 ∧ v.msb = false) ∨ (v ≠ 0x0000 ∧ v.msb = true) ∨ (v ≠ 0x0000 ∧ v.msb = false)) ∧
  ∀ s t : State, step s = .next t → t.cond = s.cond ∨ ∃ v, t.cond = (setcc v s).cond

/-- Which instructions leave the flags (10_state section 3; R29). -/
def Obligations.FlagsStayButForTheSetters : Prop :=
  ∀ (i : Instr) (s t : State), setsFlags i = false → exec i s = .next t → t.cond = s.cond

/-- How each instruction leaves pc (10_state section 2; R25; base R7 of JSRR is D17, log 22). -/
def Obligations.PcChangesOnlyByControlTransfer : Prop :=
  ∀ (i : Instr) (s t : State), exec i s = .next t →
    match i with
    | .br _ _ _ offset9 => t.pc = s.pc ∨ t.pc = s.pc + sext offset9
    | .jmp base => t.pc = s.reg base
    | .jsr offset11 => t.pc = s.pc + sext offset11
    | .jsrr base => t.pc = if base = 7 then s.pc else s.reg base
    | _ => t.pc = s.pc

/-- Only HALT clears `running`, and no instruction sets it (10_state section 4; R31, R160, R200). -/
def Obligations.OnlyHaltClearsRunning : Prop :=
  ∀ (i : Instr) (s t : State), exec i s = .next t → i ≠ .trapHalt → t.running = s.running

/-- The fault record is written only by a raise (10_state section 4; R32, R201, R202): UnrecognizedTrapCode by its
TRAP alone, InputError only where the source fails and by an instruction that reads memory or the console. -/
def Obligations.FaultIsWrittenOnlyByARaise : Prop :=
  ∀ (i : Instr) (s t : State), exec i s = .next t → t.fault ≠ s.fault →
    (∃ code, i = .trapUnrecognised code ∧ t.fault = .unrecognizedTrapCode code) ∨
    (t.fault = .inputError ∧ .failure ∈ s.input ∧ readsMemoryOrSource i = true)

/-- Memory changes only by ST, STI, STR, but for the two keyboard cells (20_memory R50, R52 to R57). -/
def Obligations.OnlyStoresChangeOrdinaryCells : Prop :=
  ∀ (i : Instr) (s t : State), storesToMemory i = false → exec i s = .next t →
    ∀ a, a ≠ s.cfg.kbsrAddr → a ≠ s.cfg.kbdrAddr → t.cell a = s.cell a

/-- The source's events are taken in order, each at most once, and the sink only receives; the parameters never
change: what a step leaves of the source is a suffix, and the sink's bytes are extended (45; R180, R183). -/
def Obligations.ConsoleIsTakenAndGivenInOrder : Prop :=
  ∀ s t : State, step s = .next t → t.input <:+ s.input ∧ s.output <+: t.output ∧ t.cfg = s.cfg

/-- An instruction that makes no read leaves the source alone and does not depend on it (20_memory R52, R56). -/
def Obligations.InputIsUnseenWithoutARead : Prop :=
  ∀ (i : Instr) (s : State) (es : List InputEvent), readsMemoryOrSource i = false →
    ∃ t, exec i s = .next t ∧ t.input = s.input ∧ exec i { s with input := es } = .next { t with input := es }

/-! ### The host's operations -/

/-- Load (45 section 3; R176; which images are refused is D19, log 17): the words after the origin, big-endian, a
trailing odd byte dropped; nothing else of the machine changes. -/
def Obligations.LoadStoresTheImage : Prop :=
  ∀ (hi lo : Byte) (rest : List Byte) (s : State), s.active = false →
    rest.length / 2 ≤ 65536 - (256 * hi.toNat + lo.toNat) →
    ∃ t, load (hi :: lo :: rest) s = .next t ∧
      (∀ i, i < rest.length / 2 → t.cell (BitVec.ofNat 16 (256 * hi.toNat + lo.toNat + i)) =
        BitVec.ofNat 16 (256 * (rest.getD (2 * i) 0).toNat + (rest.getD (2 * i + 1) 0).toNat)) ∧
      (∀ a : Word, (a.toNat < 256 * hi.toNat + lo.toNat ∨ 256 * hi.toNat + lo.toNat + rest.length / 2 ≤ a.toNat) →
        t.cell a = s.cell a) ∧
      SameRegs s t ∧ t.cond = s.cond ∧ t.pc = s.pc ∧ SameConsole s t ∧ SameControl s t

/-- Load refuses an image without an origin, an image that runs past 0xFFFF, and a load during a run (R177; D19,
log 17); reset is refused during a run (R39, R185; log 29); Run refuses a second run (R175; D13, log 16). -/
def Obligations.HostOperationsRefuseByName : Prop :=
  ∀ s : State,
    (s.active = false → load [] s = .refused .imageTooShort ∧ (∀ b, load [b] s = .refused .imageTooShort) ∧
      ∀ (hi lo : Byte) (rest : List Byte), 65536 - (256 * hi.toNat + lo.toNat) < rest.length / 2 →
        load (hi :: lo :: rest) s = .refused .imageTooLong) ∧
    (s.active = true → (∀ image, load image s = .refused .loadDuringRun) ∧ hostReset s = .refused .resetDuringRun) ∧
    (s.hasRun = true → ∀ n, run n s = .refused .secondRun)

/-- The loop of Run is the step iterated, as the host iterates it (R170, R174; log 15). -/
def Obligations.RunLoopIsTheStepIterated : Prop :=
  ∀ (n : Nat) (s : State), runLoop n s = Host.Core.run Sys2Proof.core n s

/-- Run (45 section 2; R174, R175, R200), in at most `n` trips, from a state with the invariant that has not been run.
It sets `running` and goes into the loop, and it keeps the invariant. It answers a state the loop would go on from
only when all `n` trips were made, each from such a state. Else it answers the first state the loop's test stops at,
and the trip that led there was HALT (then `running` is clear and no fault recorded) or a fatal error (then `running`
is set and the fault recorded). The count of trips is the model's fuel, and the mark that Run has been called is log
16. -/
def Obligations.RunEndsByHaltOrFatalError : Prop :=
  ∀ (n : Nat) (s : State), MachineInv s → s.hasRun = false →
    run n s = runLoop n { s with running := true, hasRun := true } ∧
    ∃ t, run n s = .next t ∧ MachineInv t ∧ t.hasRun = true ∧
      (t.active = true → ∀ k, k ≤ n →
        ∃ u, Host.Core.run Sys2Proof.core k { s with running := true, hasRun := true } = .next u ∧ u.active = true ∧
          (k = n → u = t)) ∧
      (t.active = false → ∃ k u, k < n ∧
        Host.Core.run Sys2Proof.core k { s with running := true, hasRun := true } = .next u ∧ u.active = true ∧
        step u = .next t ∧
        ((t.running = false ∧ t.fault = .none ∧ u.service = none ∧ u.pc ≠ u.cfg.kbsrAddr ∧
            decode u.cfg.opcodeMap (u.cell u.pc) = .trapHalt) ∨
          (t.running = true ∧ t.fault ≠ .none)))
end

