-- ==== Sys2Proof/Laws/Encoding.lean ====
section
/-!
SUPPORT. The fields of an encoded word, layout by layout (30_encoding R82, R83): each field reads back what the
layout was given; and reading OPCODE_MAP both ways. With them a proof about `decode m (encode m i)` unfolds neither.
-/

namespace Sys2Proof

/-- A field that lies wholly in the lower part of a concatenation. -/
theorem extract_append_low {m n : Nat} (x : BitVec m) (y : BitVec n) (i l : Nat) (h : i + l ≤ n) :
    (x ++ y).extractLsb' i l = y.extractLsb' i l := by
  ext j hj
  simp only [BitVec.getElem_extractLsb', BitVec.getLsbD_append]
  rw [if_pos (by omega)]

/-- A field that lies wholly in the upper part of a concatenation. -/
theorem extract_append_high {m n : Nat} (x : BitVec m) (y : BitVec n) (i l : Nat) (h : n ≤ i) :
    (x ++ y).extractLsb' i l = x.extractLsb' (i - n) l := by
  ext j hj
  simp only [BitVec.getElem_extractLsb', BitVec.getLsbD_append]
  rw [if_neg (by omega), show i + j - n = i - n + j by omega]

/-- A legal OPCODE_MAP has an entry for every opcode: sixteen different entries out of sixteen. -/
theorem OpcodeMapLegal.mem {m : OpcodeMap} (h : OpcodeMapLegal m) (o : Opcode) : o ∈ m.toList := by
  have hp : m.toList.Subperm opcodeMapDefault.toList :=
    List.subperm_of_subset h.2.2 fun o _ => by cases o <;> decide
  refine (hp.perm_of_length_le (by simp)).mem_iff.mpr ?_
  cases o <;> decide

theorem opcodeOf_eq_getElem (m : OpcodeMap) (op : BitVec 4) (h : op.toNat < m.toList.length) :
    opcodeOf m op = m.toList[op.toNat] := by simp [opcodeOf]

/-- Reading a legal OPCODE_MAP back: the value of an opcode selects it. -/
theorem OpcodeMapLegal.opcodeOf_opcodeNumber {m : OpcodeMap} (h : OpcodeMapLegal m) (o : Opcode) :
    opcodeOf m (opcodeNumber m o) = o := by
  have hl : m.toList.idxOf o < m.toList.length := List.idxOf_lt_length_of_mem (h.mem o)
  have hn : (opcodeNumber m o).toNat = m.toList.idxOf o := by
    rw [opcodeNumber, BitVec.toNat_ofNat, Nat.mod_eq_of_lt (by simpa using hl)]
  rw [opcodeOf_eq_getElem m _ (hn ▸ hl)]
  simp only [hn]
  exact List.getElem_idxOf hl

/-- Reading a legal OPCODE_MAP back: an opcode value is the value of what it selects. -/
theorem OpcodeMapLegal.opcodeNumber_opcodeOf {m : OpcodeMap} (h : OpcodeMapLegal m) (op : BitVec 4) :
    opcodeNumber m (opcodeOf m op) = op := by
  have hl : op.toNat < m.toList.length := by simpa using op.isLt
  rw [opcodeNumber, opcodeOf_eq_getElem m op hl, h.2.2.idxOf_getElem op.toNat hl]
  simp

theorem opcodeMapDefault_legal : OpcodeMapLegal opcodeMapDefault := by unfold OpcodeMapLegal; decide

@[simp] theorem opField_layoutWord (op : BitVec 4) (r : BitVec 12) : opField (layoutWord op r) = op := by
  simp only [opField, layoutWord]
  rw [extract_append_high op r 12 4 (by omega)]
  exact BitVec.extractLsb'_eq_self

/-- A field of the low twelve bits is read from the format alone. -/
theorem extract_layoutWord (op : BitVec 4) (r : BitVec 12) (i l : Nat) (h : i + l ≤ 12) :
    (layoutWord op r).extractLsb' i l = r.extractLsb' i l := extract_append_low op r i l h

theorem getLsbD_layoutWord (op : BitVec 4) (r : BitVec 12) (i : Nat) (h : i < 12) :
    (layoutWord op r).getLsbD i = r.getLsbD i := by
  have : (layoutWord op r).getLsbD i = (op ++ r).getLsbD i := rfl
  rw [this, BitVec.getLsbD_append, if_pos h]

@[simp] theorem ignoredField_layoutWord (op : BitVec 4) (r : BitVec 12) : ignoredField (layoutWord op r) = r := by
  rw [ignoredField, extract_layoutWord _ _ _ _ (by omega)]
  exact BitVec.extractLsb'_eq_self

/-- Every word is its opcode above its low twelve bits. -/
theorem layoutWord_fields (w : Word) : layoutWord (opField w) (ignoredField w) = w := by
  ext j hj
  have : (BitVec.extractLsb' 12 4 w ++ BitVec.extractLsb' 0 12 w : BitVec 16)[j] = w[j] := by
    rw [BitVec.getElem_append]
    split
    · simp
      rfl
    · simp [show 12 + (j - 12) = j by omega]
      rfl
  exact this

theorem layoutWord_inj {o o' : BitVec 4} {r r' : BitVec 12} (h : layoutWord o r = layoutWord o' r') :
    o = o' ∧ r = r' :=
  ⟨by simpa using congrArg opField h, by simpa using congrArg ignoredField h⟩

@[simp] theorem dstField_layoutRegs (op : BitVec 4) (a b : RegNum) (c : BitVec 6) :
    dstField (layoutWord op (layoutRegs a b c)) = a := by
  rw [dstField, extract_layoutWord _ _ _ _ (by omega)]
  have : (layoutRegs a b c).extractLsb' 9 3 = (a ++ b ++ c).extractLsb' 9 3 := rfl
  rw [this, extract_append_high _ _ _ _ (by omega), extract_append_high _ _ _ _ (by omega)]
  exact BitVec.extractLsb'_eq_self

@[simp] theorem baseField_layoutRegs (op : BitVec 4) (a b : RegNum) (c : BitVec 6) :
    baseField (layoutWord op (layoutRegs a b c)) = b := by
  rw [baseField, extract_layoutWord _ _ _ _ (by omega)]
  have : (layoutRegs a b c).extractLsb' 6 3 = (a ++ b ++ c).extractLsb' 6 3 := rfl
  rw [this, extract_append_high _ _ _ _ (by omega), extract_append_low _ _ _ _ (by omega)]
  exact BitVec.extractLsb'_eq_self

/-- A field of the low six bits of a register layout is read from those six bits. -/
theorem extract_layoutRegs (op : BitVec 4) (a b : RegNum) (c : BitVec 6) (i l : Nat) (h : i + l ≤ 6) :
    (layoutWord op (layoutRegs a b c)).extractLsb' i l = c.extractLsb' i l := by
  rw [extract_layoutWord _ _ _ _ (by omega)]
  exact extract_append_low (a ++ b) c i l h

theorem getLsbD_layoutRegs (op : BitVec 4) (a b : RegNum) (c : BitVec 6) (i : Nat) (h : i < 6) :
    (layoutWord op (layoutRegs a b c)).getLsbD i = c.getLsbD i := by
  rw [getLsbD_layoutWord _ _ _ (by omega)]
  have : (layoutRegs a b c).getLsbD i = (a ++ b ++ c).getLsbD i := rfl
  rw [this, BitVec.getLsbD_append, if_pos h]

@[simp] theorem offset6Field_layoutRegs (op : BitVec 4) (a b : RegNum) (c : BitVec 6) :
    offset6Field (layoutWord op (layoutRegs a b c)) = c := by
  rw [offset6Field, extract_layoutRegs _ _ _ _ _ _ (by omega)]
  exact BitVec.extractLsb'_eq_self

@[simp] theorem src2Field_layoutOpr (op : BitVec 4) (a b c : RegNum) :
    src2Field (layoutWord op (layoutRegs a b (layoutOpr c))) = c := by
  rw [src2Field, extract_layoutRegs _ _ _ _ _ _ (by omega)]
  have : (layoutOpr c).extractLsb' 0 3 = (((0 : BitVec 1) ++ (0 : BitVec 2)) ++ c).extractLsb' 0 3 := rfl
  rw [this, extract_append_low _ _ _ _ (by omega)]
  exact BitVec.extractLsb'_eq_self

@[simp] theorem imm5Field_layoutOpi (op : BitVec 4) (a b : RegNum) (c : BitVec 5) :
    imm5Field (layoutWord op (layoutRegs a b (layoutOpi c))) = c := by
  rw [imm5Field, extract_layoutRegs _ _ _ _ _ _ (by omega)]
  have : (layoutOpi c).extractLsb' 0 5 = ((1 : BitVec 1) ++ c).extractLsb' 0 5 := rfl
  rw [this, extract_append_low _ _ _ _ (by omega)]
  exact BitVec.extractLsb'_eq_self

@[simp] theorem mode_layoutOpr (op : BitVec 4) (a b c : RegNum) :
    (layoutWord op (layoutRegs a b (layoutOpr c)))[5] = false := by
  rw [← BitVec.getLsbD_eq_getElem]
  rw [getLsbD_layoutRegs _ _ _ _ _ (by omega)]
  revert c; decide

@[simp] theorem mode_layoutOpi (op : BitVec 4) (a b : RegNum) (c : BitVec 5) :
    (layoutWord op (layoutRegs a b (layoutOpi c)))[5] = true := by
  rw [← BitVec.getLsbD_eq_getElem]
  rw [getLsbD_layoutRegs _ _ _ _ _ (by omega)]
  revert c; decide

@[simp] theorem dstField_layoutPcrel (op : BitVec 4) (a : RegNum) (c : BitVec 9) :
    dstField (layoutWord op (layoutPcrel a c)) = a := by
  rw [dstField, extract_layoutWord _ _ _ _ (by omega)]
  have : (layoutPcrel a c).extractLsb' 9 3 = (a ++ c).extractLsb' 9 3 := rfl
  rw [this, extract_append_high _ _ _ _ (by omega)]
  exact BitVec.extractLsb'_eq_self

@[simp] theorem offset9Field_layoutPcrel (op : BitVec 4) (a : RegNum) (c : BitVec 9) :
    offset9Field (layoutWord op (layoutPcrel a c)) = c := by
  rw [offset9Field, extract_layoutWord _ _ _ _ (by omega)]
  have : (layoutPcrel a c).extractLsb' 0 9 = (a ++ c).extractLsb' 0 9 := rfl
  rw [this, extract_append_low _ _ _ _ (by omega)]
  exact BitVec.extractLsb'_eq_self

@[simp] theorem offset9Field_layoutBr (op : BitVec 4) (n z p : Bool) (c : BitVec 9) :
    offset9Field (layoutWord op (layoutBr n z p c)) = c := by
  rw [offset9Field, extract_layoutWord _ _ _ _ (by omega)]
  have : (layoutBr n z p c).extractLsb' 0 9 =
    ((BitVec.ofBool n ++ BitVec.ofBool z ++ BitVec.ofBool p) ++ c).extractLsb' 0 9 := rfl
  rw [this, extract_append_low _ _ _ _ (by omega)]
  exact BitVec.extractLsb'_eq_self

/-- The condition bits of BRF, read from the three bits above the offset. -/
theorem getLsbD_layoutBr (op : BitVec 4) (n z p : Bool) (c : BitVec 9) (i : Nat) (h1 : 9 ≤ i) (h2 : i < 12) :
    (layoutWord op (layoutBr n z p c)).getLsbD i =
      (BitVec.ofBool n ++ BitVec.ofBool z ++ BitVec.ofBool p).getLsbD (i - 9) := by
  rw [getLsbD_layoutWord _ _ _ h2]
  have : (layoutBr n z p c).getLsbD i =
    ((BitVec.ofBool n ++ BitVec.ofBool z ++ BitVec.ofBool p) ++ c).getLsbD i := rfl
  rw [this, BitVec.getLsbD_append, if_neg (by omega)]

@[simp] theorem n_layoutBr (op : BitVec 4) (n z p : Bool) (c : BitVec 9) :
    (layoutWord op (layoutBr n z p c))[11] = n := by
  rw [← BitVec.getLsbD_eq_getElem]
  rw [getLsbD_layoutBr _ _ _ _ _ _ (by omega) (by omega)]
  revert n z p; decide

@[simp] theorem z_layoutBr (op : BitVec 4) (n z p : Bool) (c : BitVec 9) :
    (layoutWord op (layoutBr n z p c))[10] = z := by
  rw [← BitVec.getLsbD_eq_getElem]
  rw [getLsbD_layoutBr _ _ _ _ _ _ (by omega) (by omega)]
  revert n z p; decide

@[simp] theorem p_layoutBr (op : BitVec 4) (n z p : Bool) (c : BitVec 9) :
    (layoutWord op (layoutBr n z p c))[9] = p := by
  rw [← BitVec.getLsbD_eq_getElem]
  rw [getLsbD_layoutBr _ _ _ _ _ _ (by omega) (by omega)]
  revert n z p; decide

@[simp] theorem mode_layoutJsr (op : BitVec 4) (c : BitVec 11) :
    (layoutWord op (layoutJsr c))[11] = true := by
  rw [← BitVec.getLsbD_eq_getElem]
  rw [getLsbD_layoutWord _ _ _ (by omega)]
  have : (layoutJsr c).getLsbD 11 = ((1 : BitVec 1) ++ c).getLsbD 11 := rfl
  rw [this, BitVec.getLsbD_append, if_neg (by omega)]
  rfl

@[simp] theorem offset11Field_layoutJsr (op : BitVec 4) (c : BitVec 11) :
    offset11Field (layoutWord op (layoutJsr c)) = c := by
  rw [offset11Field, extract_layoutWord _ _ _ _ (by omega)]
  have : (layoutJsr c).extractLsb' 0 11 = ((1 : BitVec 1) ++ c).extractLsb' 0 11 := rfl
  rw [this, extract_append_low _ _ _ _ (by omega)]
  exact BitVec.extractLsb'_eq_self

@[simp] theorem mode_layoutJsrr (op : BitVec 4) (b : RegNum) :
    (layoutWord op (layoutJsrr b))[11] = false := by
  rw [← BitVec.getLsbD_eq_getElem]
  rw [getLsbD_layoutWord _ _ _ (by omega)]
  revert b; decide

@[simp] theorem baseField_layoutJsrr (op : BitVec 4) (b : RegNum) :
    baseField (layoutWord op (layoutJsrr b)) = b := by
  rw [baseField, extract_layoutWord _ _ _ _ (by omega)]
  revert b; decide

@[simp] theorem trapField_layoutTrap (op : BitVec 4) (c : Byte) : trapField (layoutWord op (layoutTrap c)) = c := by
  rw [trapField, extract_layoutWord _ _ _ _ (by omega)]
  have : (layoutTrap c).extractLsb' 0 8 = ((0 : BitVec 4) ++ c).extractLsb' 0 8 := rfl
  rw [this, extract_append_low _ _ _ _ (by omega)]
  exact BitVec.extractLsb'_eq_self

/-- A code outside the six services decodes to the fallback row (R161). -/
theorem decodeTrap_of_not_service {code : Byte} (h : isServiceCode code = false) :
    decodeTrap code = .trapUnrecognised code := by
  simp only [isServiceCode, Bool.and_eq_false_iff, decide_eq_false_iff_not] at h
  unfold decodeTrap
  split <;> first | rfl | omega

end Sys2Proof
end

