-- ==== Sys2Proof/Laws/Memory.lean ====
section
/-!
SUPPORT. The laws of memory: reading what was written, reading another cell, and that every operation keeps the
canonical form.
-/

namespace Sys2Proof.Machine.Memory

theorem get_erase_self (init : Word) (m : Memory) (a : Nat) : get init (m.erase a) a = init := by
  induction m with
  | nil => rfl
  | cons e m ih =>
    by_cases h : e.1 = a
    · simpa [Memory.erase, h] using ih
    · simpa [Memory.erase, get, h] using ih

theorem get_erase_of_ne (init : Word) (m : Memory) {a x : Nat} (h : x ≠ a) :
    get init (m.erase a) x = get init m x := by
  induction m with
  | nil => rfl
  | cons e m ih =>
    by_cases he : e.1 = a
    · have hx : ¬ a = x := fun c => h c.symm
      simpa [Memory.erase, get, he, hx] using ih
    · by_cases hx : e.1 = x
      · simp [Memory.erase, get, hx, h]
      · simpa [Memory.erase, get, he, hx] using ih

theorem get_insert_self (init : Word) (m : Memory) (a : Nat) (v : Word) (h : ∀ e ∈ m, e.1 ≠ a) :
    get init (m.insert a v) a = v := by
  induction m with
  | nil => simp [Memory.insert, get]
  | cons e m ih =>
    have he : e.1 ≠ a := h e (by simp)
    by_cases hk : a < e.1
    · simp [Memory.insert, get, hk]
    · simpa [Memory.insert, get, hk, he] using ih fun e' he' => h e' (by simp [he'])

theorem get_insert_of_ne (init : Word) (m : Memory) (v : Word) {a x : Nat} (h : x ≠ a) :
    get init (m.insert a v) x = get init m x := by
  have hx : ¬ a = x := fun c => h c.symm
  induction m with
  | nil => simp [Memory.insert, get, hx]
  | cons e m ih =>
    by_cases hk : a < e.1
    · simp [Memory.insert, get, hk, hx]
    · simp [Memory.insert, get, hk, ih]

theorem erase_ne (m : Memory) (a : Nat) : ∀ e ∈ m.erase a, e.1 ≠ a := by
  intro e he
  simpa using (List.mem_filter.mp he).2

/-- A read after a write of the same cell gives the value written (R58). -/
theorem get_put_self (init : Word) (m : Memory) (a : Nat) (v : Word) : get init (put init m a v) a = v := by
  unfold put
  split
  · next h => rw [get_erase_self, h]
  · exact get_insert_self _ _ _ _ (erase_ne m a)

/-- A write leaves every other cell alone. -/
theorem get_put_of_ne (init : Word) (m : Memory) (v : Word) {a x : Nat} (h : x ≠ a) :
    get init (put init m a v) x = get init m x := by
  unfold put
  split
  · exact get_erase_of_ne _ _ h
  · rw [get_insert_of_ne _ _ _ h, get_erase_of_ne _ _ h]

theorem wf_erase {init : Word} {m : Memory} (h : m.wf init) (a : Nat) : (m.erase a).wf init :=
  ⟨h.1.sublist (List.filter_sublist.map _), fun e he => h.2 e (List.mem_filter.mp he).1⟩

theorem mem_insert {m : Memory} {a : Nat} {v : Word} {e : Nat × Word} (h : e ∈ m.insert a v) :
    e = (a, v) ∨ e ∈ m := by
  induction m with
  | nil => simpa [Memory.insert] using h
  | cons d m ih =>
    by_cases hk : a < d.1
    · simpa [Memory.insert, hk] using h
    · simp only [Memory.insert, hk, if_false, List.mem_cons] at h ⊢
      rcases h with h | h
      · exact .inr (.inl h)
      · exact (ih h).imp_right .inr

theorem pairwise_insert {m : Memory} {a : Nat} {v : Word} (h : (m.map Prod.fst).Pairwise (· < ·))
    (ha : ∀ e ∈ m, e.1 ≠ a) : ((m.insert a v).map Prod.fst).Pairwise (· < ·) := by
  induction m with
  | nil => simp [Memory.insert]
  | cons d m ih =>
    have hd : d.1 ≠ a := ha d (by simp)
    simp only [List.map_cons, List.pairwise_cons, List.mem_map, forall_exists_index, and_imp] at h
    by_cases hk : a < d.1
    · simp only [Memory.insert, hk, if_true, List.map_cons, List.pairwise_cons, List.mem_cons, List.mem_map]
      refine ⟨?_, fun k hk' => ?_, h.2⟩
      · rintro k (rfl | ⟨e, he, rfl⟩)
        · exact hk
        · exact hk.trans (h.1 _ e he rfl)
      · obtain ⟨e, he, rfl⟩ := hk'
        exact h.1 _ e he rfl
    · simp only [Memory.insert, hk, if_false, List.map_cons, List.pairwise_cons, List.mem_map]
      refine ⟨?_, ih h.2 fun e he => ha e (by simp [he])⟩
      rintro k ⟨e, he, rfl⟩
      rcases mem_insert he with rfl | he
      · show d.1 < a
        omega
      · exact h.1 _ e he rfl

/-- A write keeps the canonical form. -/
theorem wf_put {init : Word} {m : Memory} (h : m.wf init) {a : Nat} (ha : a < 65536) (v : Word) :
    (put init m a v).wf init := by
  unfold put
  split
  · exact wf_erase h a
  · next hv =>
    refine ⟨pairwise_insert (wf_erase h a).1 (erase_ne m a), fun e he => ?_⟩
    rcases mem_insert he with rfl | he
    · exact ⟨ha, hv⟩
    · exact (wf_erase h a).2 e he

/-- Memory after reset is in canonical form. -/
theorem wf_nil (init : Word) : wf init [] := by simp [wf]

end Sys2Proof.Machine.Memory
end

