-- ==== Sys2Proof/Laws/State.lean ====
section
/-!
SUPPORT. The small lemmas of the state: for each named update, what each field and accessor reads after it.
-/

namespace Sys2Proof.Machine

/-! ### setReg -/

@[simp] theorem State.setReg_pc (s : State) (r : RegNum) (v : Word) : (s.setReg r v).pc = s.pc := rfl
@[simp] theorem State.setReg_cond (s : State) (r : RegNum) (v : Word) : (s.setReg r v).cond = s.cond := rfl
@[simp] theorem State.setReg_running (s : State) (r : RegNum) (v : Word) : (s.setReg r v).running = s.running := rfl
@[simp] theorem State.setReg_fault (s : State) (r : RegNum) (v : Word) : (s.setReg r v).fault = s.fault := rfl
@[simp] theorem State.setReg_service (s : State) (r : RegNum) (v : Word) : (s.setReg r v).service = s.service := rfl
@[simp] theorem State.setReg_hasRun (s : State) (r : RegNum) (v : Word) : (s.setReg r v).hasRun = s.hasRun := rfl
@[simp] theorem State.setReg_input (s : State) (r : RegNum) (v : Word) : (s.setReg r v).input = s.input := rfl
@[simp] theorem State.setReg_output (s : State) (r : RegNum) (v : Word) : (s.setReg r v).output = s.output := rfl
@[simp] theorem State.setReg_cfg (s : State) (r : RegNum) (v : Word) : (s.setReg r v).cfg = s.cfg := rfl
@[simp] theorem State.setReg_mem (s : State) (r : RegNum) (v : Word) : (s.setReg r v).mem = s.mem := rfl
@[simp] theorem State.setReg_cell (s : State) (r : RegNum) (v : Word) (x : Word) : (s.setReg r v).cell x = s.cell x := rfl

@[simp] theorem State.setReg_reg_self (s : State) (r : RegNum) (v : Word) : (s.setReg r v).reg r = v := by
  simp [State.setReg, State.reg]

theorem State.setReg_reg_of_ne (s : State) (v : Word) {r q : RegNum} (h : q ≠ r) :
    (s.setReg r v).reg q = s.reg q := by
  have h' : r.toNat ≠ q.toNat := fun e => h (BitVec.eq_of_toNat_eq e.symm)
  simp [State.setReg, State.reg, h']

theorem State.setReg_reg (s : State) (r q : RegNum) (v : Word) :
    (s.setReg r v).reg q = if q = r then v else s.reg q := by
  by_cases h : q = r
  · subst h; simp
  · simp [h, State.setReg_reg_of_ne s v h]

/-! ### setPc -/

@[simp] theorem State.setPc_pc (s : State) (v : Word) : (s.setPc v).pc = v := rfl
@[simp] theorem State.setPc_cond (s : State) (v : Word) : (s.setPc v).cond = s.cond := rfl
@[simp] theorem State.setPc_running (s : State) (v : Word) : (s.setPc v).running = s.running := rfl
@[simp] theorem State.setPc_fault (s : State) (v : Word) : (s.setPc v).fault = s.fault := rfl
@[simp] theorem State.setPc_service (s : State) (v : Word) : (s.setPc v).service = s.service := rfl
@[simp] theorem State.setPc_hasRun (s : State) (v : Word) : (s.setPc v).hasRun = s.hasRun := rfl
@[simp] theorem State.setPc_input (s : State) (v : Word) : (s.setPc v).input = s.input := rfl
@[simp] theorem State.setPc_output (s : State) (v : Word) : (s.setPc v).output = s.output := rfl
@[simp] theorem State.setPc_cfg (s : State) (v : Word) : (s.setPc v).cfg = s.cfg := rfl
@[simp] theorem State.setPc_mem (s : State) (v : Word) : (s.setPc v).mem = s.mem := rfl
@[simp] theorem State.setPc_regs (s : State) (v : Word) : (s.setPc v).regs = s.regs := rfl
@[simp] theorem State.setPc_reg (s : State) (v : Word) (q : RegNum) : (s.setPc v).reg q = s.reg q := rfl
@[simp] theorem State.setPc_cell (s : State) (v : Word) (x : Word) : (s.setPc v).cell x = s.cell x := rfl

/-! ### setCond -/

@[simp] theorem State.setCond_pc (s : State) (v : Word) : (s.setCond v).pc = s.pc := rfl
@[simp] theorem State.setCond_cond (s : State) (v : Word) : (s.setCond v).cond = v := rfl
@[simp] theorem State.setCond_running (s : State) (v : Word) : (s.setCond v).running = s.running := rfl
@[simp] theorem State.setCond_fault (s : State) (v : Word) : (s.setCond v).fault = s.fault := rfl
@[simp] theorem State.setCond_service (s : State) (v : Word) : (s.setCond v).service = s.service := rfl
@[simp] theorem State.setCond_hasRun (s : State) (v : Word) : (s.setCond v).hasRun = s.hasRun := rfl
@[simp] theorem State.setCond_input (s : State) (v : Word) : (s.setCond v).input = s.input := rfl
@[simp] theorem State.setCond_output (s : State) (v : Word) : (s.setCond v).output = s.output := rfl
@[simp] theorem State.setCond_cfg (s : State) (v : Word) : (s.setCond v).cfg = s.cfg := rfl
@[simp] theorem State.setCond_mem (s : State) (v : Word) : (s.setCond v).mem = s.mem := rfl
@[simp] theorem State.setCond_regs (s : State) (v : Word) : (s.setCond v).regs = s.regs := rfl
@[simp] theorem State.setCond_reg (s : State) (v : Word) (q : RegNum) : (s.setCond v).reg q = s.reg q := rfl
@[simp] theorem State.setCond_cell (s : State) (v : Word) (x : Word) : (s.setCond v).cell x = s.cell x := rfl

/-! ### setRunning -/

@[simp] theorem State.setRunning_pc (s : State) (b : Bool) : (s.setRunning b).pc = s.pc := rfl
@[simp] theorem State.setRunning_cond (s : State) (b : Bool) : (s.setRunning b).cond = s.cond := rfl
@[simp] theorem State.setRunning_running (s : State) (b : Bool) : (s.setRunning b).running = b := rfl
@[simp] theorem State.setRunning_fault (s : State) (b : Bool) : (s.setRunning b).fault = s.fault := rfl
@[simp] theorem State.setRunning_service (s : State) (b : Bool) : (s.setRunning b).service = s.service := rfl
@[simp] theorem State.setRunning_hasRun (s : State) (b : Bool) : (s.setRunning b).hasRun = s.hasRun := rfl
@[simp] theorem State.setRunning_input (s : State) (b : Bool) : (s.setRunning b).input = s.input := rfl
@[simp] theorem State.setRunning_output (s : State) (b : Bool) : (s.setRunning b).output = s.output := rfl
@[simp] theorem State.setRunning_cfg (s : State) (b : Bool) : (s.setRunning b).cfg = s.cfg := rfl
@[simp] theorem State.setRunning_mem (s : State) (b : Bool) : (s.setRunning b).mem = s.mem := rfl
@[simp] theorem State.setRunning_regs (s : State) (b : Bool) : (s.setRunning b).regs = s.regs := rfl
@[simp] theorem State.setRunning_reg (s : State) (b : Bool) (q : RegNum) : (s.setRunning b).reg q = s.reg q := rfl
@[simp] theorem State.setRunning_cell (s : State) (b : Bool) (x : Word) : (s.setRunning b).cell x = s.cell x := rfl

/-! ### setFault -/

@[simp] theorem State.setFault_pc (s : State) (e : FaultRecord) : (s.setFault e).pc = s.pc := rfl
@[simp] theorem State.setFault_cond (s : State) (e : FaultRecord) : (s.setFault e).cond = s.cond := rfl
@[simp] theorem State.setFault_running (s : State) (e : FaultRecord) : (s.setFault e).running = s.running := rfl
@[simp] theorem State.setFault_fault (s : State) (e : FaultRecord) : (s.setFault e).fault = e := rfl
@[simp] theorem State.setFault_service (s : State) (e : FaultRecord) : (s.setFault e).service = s.service := rfl
@[simp] theorem State.setFault_hasRun (s : State) (e : FaultRecord) : (s.setFault e).hasRun = s.hasRun := rfl
@[simp] theorem State.setFault_input (s : State) (e : FaultRecord) : (s.setFault e).input = s.input := rfl
@[simp] theorem State.setFault_output (s : State) (e : FaultRecord) : (s.setFault e).output = s.output := rfl
@[simp] theorem State.setFault_cfg (s : State) (e : FaultRecord) : (s.setFault e).cfg = s.cfg := rfl
@[simp] theorem State.setFault_mem (s : State) (e : FaultRecord) : (s.setFault e).mem = s.mem := rfl
@[simp] theorem State.setFault_regs (s : State) (e : FaultRecord) : (s.setFault e).regs = s.regs := rfl
@[simp] theorem State.setFault_reg (s : State) (e : FaultRecord) (q : RegNum) : (s.setFault e).reg q = s.reg q := rfl
@[simp] theorem State.setFault_cell (s : State) (e : FaultRecord) (x : Word) : (s.setFault e).cell x = s.cell x := rfl

/-! ### setService -/

@[simp] theorem State.setService_pc (s : State) (v : Option Service) : (s.setService v).pc = s.pc := rfl
@[simp] theorem State.setService_cond (s : State) (v : Option Service) : (s.setService v).cond = s.cond := rfl
@[simp] theorem State.setService_running (s : State) (v : Option Service) : (s.setService v).running = s.running := rfl
@[simp] theorem State.setService_fault (s : State) (v : Option Service) : (s.setService v).fault = s.fault := rfl
@[simp] theorem State.setService_service (s : State) (v : Option Service) : (s.setService v).service = v := rfl
@[simp] theorem State.setService_hasRun (s : State) (v : Option Service) : (s.setService v).hasRun = s.hasRun := rfl
@[simp] theorem State.setService_input (s : State) (v : Option Service) : (s.setService v).input = s.input := rfl
@[simp] theorem State.setService_output (s : State) (v : Option Service) : (s.setService v).output = s.output := rfl
@[simp] theorem State.setService_cfg (s : State) (v : Option Service) : (s.setService v).cfg = s.cfg := rfl
@[simp] theorem State.setService_mem (s : State) (v : Option Service) : (s.setService v).mem = s.mem := rfl
@[simp] theorem State.setService_regs (s : State) (v : Option Service) : (s.setService v).regs = s.regs := rfl
@[simp] theorem State.setService_reg (s : State) (v : Option Service) (q : RegNum) : (s.setService v).reg q = s.reg q := rfl
@[simp] theorem State.setService_cell (s : State) (v : Option Service) (x : Word) : (s.setService v).cell x = s.cell x := rfl

/-! ### setInput -/

@[simp] theorem State.setInput_pc (s : State) (es : List InputEvent) : (s.setInput es).pc = s.pc := rfl
@[simp] theorem State.setInput_cond (s : State) (es : List InputEvent) : (s.setInput es).cond = s.cond := rfl
@[simp] theorem State.setInput_running (s : State) (es : List InputEvent) : (s.setInput es).running = s.running := rfl
@[simp] theorem State.setInput_fault (s : State) (es : List InputEvent) : (s.setInput es).fault = s.fault := rfl
@[simp] theorem State.setInput_service (s : State) (es : List InputEvent) : (s.setInput es).service = s.service := rfl
@[simp] theorem State.setInput_hasRun (s : State) (es : List InputEvent) : (s.setInput es).hasRun = s.hasRun := rfl
@[simp] theorem State.setInput_input (s : State) (es : List InputEvent) : (s.setInput es).input = es := rfl
@[simp] theorem State.setInput_output (s : State) (es : List InputEvent) : (s.setInput es).output = s.output := rfl
@[simp] theorem State.setInput_cfg (s : State) (es : List InputEvent) : (s.setInput es).cfg = s.cfg := rfl
@[simp] theorem State.setInput_mem (s : State) (es : List InputEvent) : (s.setInput es).mem = s.mem := rfl
@[simp] theorem State.setInput_regs (s : State) (es : List InputEvent) : (s.setInput es).regs = s.regs := rfl
@[simp] theorem State.setInput_reg (s : State) (es : List InputEvent) (q : RegNum) : (s.setInput es).reg q = s.reg q := rfl
@[simp] theorem State.setInput_cell (s : State) (es : List InputEvent) (x : Word) : (s.setInput es).cell x = s.cell x := rfl

/-! ### setCell -/

@[simp] theorem State.setCell_pc (s : State) (a v : Word) : (s.setCell a v).pc = s.pc := rfl
@[simp] theorem State.setCell_cond (s : State) (a v : Word) : (s.setCell a v).cond = s.cond := rfl
@[simp] theorem State.setCell_running (s : State) (a v : Word) : (s.setCell a v).running = s.running := rfl
@[simp] theorem State.setCell_fault (s : State) (a v : Word) : (s.setCell a v).fault = s.fault := rfl
@[simp] theorem State.setCell_service (s : State) (a v : Word) : (s.setCell a v).service = s.service := rfl
@[simp] theorem State.setCell_hasRun (s : State) (a v : Word) : (s.setCell a v).hasRun = s.hasRun := rfl
@[simp] theorem State.setCell_input (s : State) (a v : Word) : (s.setCell a v).input = s.input := rfl
@[simp] theorem State.setCell_output (s : State) (a v : Word) : (s.setCell a v).output = s.output := rfl
@[simp] theorem State.setCell_cfg (s : State) (a v : Word) : (s.setCell a v).cfg = s.cfg := rfl
@[simp] theorem State.setCell_mem (s : State) (a v : Word) : (s.setCell a v).mem = Memory.put s.cfg.memInit s.mem a.toNat v := rfl
@[simp] theorem State.setCell_regs (s : State) (a v : Word) : (s.setCell a v).regs = s.regs := rfl
@[simp] theorem State.setCell_reg (s : State) (a v : Word) (q : RegNum) : (s.setCell a v).reg q = s.reg q := rfl

@[simp] theorem State.setCell_cell_self (s : State) (a v : Word) : (s.setCell a v).cell a = v :=
  Memory.get_put_self ..

theorem State.setCell_cell_of_ne (s : State) (v : Word) {a x : Word} (h : x ≠ a) :
    (s.setCell a v).cell x = s.cell x :=
  Memory.get_put_of_ne _ _ _ fun e => h (BitVec.eq_of_toNat_eq e)

theorem State.setCell_cell (s : State) (a x v : Word) :
    (s.setCell a v).cell x = if x = a then v else s.cell x := by
  by_cases h : x = a
  · subst h; simp
  · simp [h, State.setCell_cell_of_ne s v h]

/-! ### consolePut -/

@[simp] theorem consolePut_pc (b : Byte) (s : State) : (consolePut b s).pc = s.pc := rfl
@[simp] theorem consolePut_cond (b : Byte) (s : State) : (consolePut b s).cond = s.cond := rfl
@[simp] theorem consolePut_running (b : Byte) (s : State) : (consolePut b s).running = s.running := rfl
@[simp] theorem consolePut_fault (b : Byte) (s : State) : (consolePut b s).fault = s.fault := rfl
@[simp] theorem consolePut_service (b : Byte) (s : State) : (consolePut b s).service = s.service := rfl
@[simp] theorem consolePut_hasRun (b : Byte) (s : State) : (consolePut b s).hasRun = s.hasRun := rfl
@[simp] theorem consolePut_input (b : Byte) (s : State) : (consolePut b s).input = s.input := rfl
@[simp] theorem consolePut_output (b : Byte) (s : State) : (consolePut b s).output = s.output ++ [b] := rfl
@[simp] theorem consolePut_cfg (b : Byte) (s : State) : (consolePut b s).cfg = s.cfg := rfl
@[simp] theorem consolePut_mem (b : Byte) (s : State) : (consolePut b s).mem = s.mem := rfl
@[simp] theorem consolePut_regs (b : Byte) (s : State) : (consolePut b s).regs = s.regs := rfl
@[simp] theorem consolePut_reg (b : Byte) (s : State) (q : RegNum) : (consolePut b s).reg q = s.reg q := rfl
@[simp] theorem consolePut_cell (b : Byte) (s : State) (x : Word) : (consolePut b s).cell x = s.cell x := rfl

/-! ### consolePutAll -/

@[simp] theorem consolePutAll_pc (bs : List Byte) (s : State) : (consolePutAll bs s).pc = s.pc := rfl
@[simp] theorem consolePutAll_cond (bs : List Byte) (s : State) : (consolePutAll bs s).cond = s.cond := rfl
@[simp] theorem consolePutAll_running (bs : List Byte) (s : State) : (consolePutAll bs s).running = s.running := rfl
@[simp] theorem consolePutAll_fault (bs : List Byte) (s : State) : (consolePutAll bs s).fault = s.fault := rfl
@[simp] theorem consolePutAll_service (bs : List Byte) (s : State) : (consolePutAll bs s).service = s.service := rfl
@[simp] theorem consolePutAll_hasRun (bs : List Byte) (s : State) : (consolePutAll bs s).hasRun = s.hasRun := rfl
@[simp] theorem consolePutAll_input (bs : List Byte) (s : State) : (consolePutAll bs s).input = s.input := rfl
@[simp] theorem consolePutAll_output (bs : List Byte) (s : State) : (consolePutAll bs s).output = s.output ++ bs := rfl
@[simp] theorem consolePutAll_cfg (bs : List Byte) (s : State) : (consolePutAll bs s).cfg = s.cfg := rfl
@[simp] theorem consolePutAll_mem (bs : List Byte) (s : State) : (consolePutAll bs s).mem = s.mem := rfl
@[simp] theorem consolePutAll_regs (bs : List Byte) (s : State) : (consolePutAll bs s).regs = s.regs := rfl
@[simp] theorem consolePutAll_reg (bs : List Byte) (s : State) (q : RegNum) : (consolePutAll bs s).reg q = s.reg q := rfl
@[simp] theorem consolePutAll_cell (bs : List Byte) (s : State) (x : Word) : (consolePutAll bs s).cell x = s.cell x := rfl

/-! ### raise, memWrite, setcc, writeWithFlags

Each is a named update above under the spec's name, so simp reads it as that update. -/

@[simp] theorem raise_eq (e : FaultRecord) (s : State) : raise e s = s.setFault e := rfl

@[simp] theorem memWrite_eq (a v : Word) (s : State) : memWrite a v s = s.setCell a v := rfl

@[simp] theorem setcc_eq (v : Word) (s : State) : setcc v s = s.setCond (flagOf v) := rfl

@[simp] theorem writeWithFlags_eq (d : RegNum) (v : Word) (s : State) :
    writeWithFlags d v s = (s.setReg d v).setCond (flagOf v) := rfl

/-! ### active -/

theorem State.active_iff (s : State) : s.active = true ↔ s.running = true ∧ s.fault = .none := by
  simp [State.active]

end Sys2Proof.Machine
end

