-- ==== Sys2Proof/Laws/Ops.lean ====
section
/-!
SUPPORT. One lemma per shared operation that says what it can do: the source's two requests, the keyboard poll,
`MemRead`, `withRead`, the blocking reads and the string loops. Proofs about instructions cite these and do not
unfold the operations.
-/

namespace Sys2Proof.Machine

/-! ### The source -/

theorem pollSource_suffix (es : List InputEvent) : (pollSource es).2 <:+ es := by
  cases es with
  | nil => exact List.suffix_refl _
  | cons e es => cases e <;> exact List.suffix_cons _ _

theorem pollSource_error_iff (es : List InputEvent) : (pollSource es).1 = .error ↔ es.head? = some .failure := by
  cases es with
  | nil => simp [pollSource]
  | cons e es => cases e <;> simp [pollSource]

theorem getSource_suffix (es : List InputEvent) : (getSource es).2 <:+ es := by
  induction es with
  | nil => exact List.suffix_refl _
  | cons e es ih =>
    cases e with
    | quiet => exact ih.trans (List.suffix_cons _ _)
    | byte b => exact List.suffix_cons _ _
    | failure => exact List.suffix_cons _ _

theorem getSource_error_mem {es : List InputEvent} (h : (getSource es).1 = .error) : .failure ∈ es := by
  induction es with
  | nil => simp [getSource] at h
  | cons e es ih =>
    cases e with
    | quiet => exact List.mem_cons_of_mem _ (ih h)
    | byte b => simp [getSource] at h
    | failure => simp

theorem getSource_quiet_byte (k : Nat) (b : Byte) (rest : List InputEvent) :
    getSource (List.replicate k .quiet ++ .byte b :: rest) = (.char b, rest) := by
  induction k with
  | zero => rfl
  | succ k ih => simpa [List.replicate_succ, getSource] using ih

theorem getSource_quiet_failure (k : Nat) (rest : List InputEvent) :
    getSource (List.replicate k .quiet ++ .failure :: rest) = (.error, rest) := by
  induction k with
  | zero => rfl
  | succ k ih => simpa [List.replicate_succ, getSource] using ih

theorem getSource_all_quiet {es : List InputEvent} (h : ∀ e ∈ es, e = .quiet) : getSource es = (.notReady, []) := by
  induction es with
  | nil => rfl
  | cons e es ih =>
    obtain rfl : e = .quiet := h e (by simp)
    exact ih fun e' he' => h e' (by simp [he'])

/-! ### What console and memory operations leave alone -/

/-- The frame of every operation that only reads memory and uses the console: registers, pc, flags, `running`, the
run's mark and the parameters stay; memory keeps its canonical form, and its cells but for the keyboard's; the
source is taken from in order and the sink only receives. -/
structure IoFrame (s t : State) : Prop where
  regs : t.regs = s.regs
  pc : t.pc = s.pc
  cond : t.cond = s.cond
  running : t.running = s.running
  hasRun : t.hasRun = s.hasRun
  cfg : t.cfg = s.cfg
  wf : Memory.wf s.cfg.memInit s.mem → Memory.wf s.cfg.memInit t.mem
  cells : ∀ a, a ≠ s.cfg.kbsrAddr → a ≠ s.cfg.kbdrAddr → t.cell a = s.cell a
  input : t.input <:+ s.input
  output : s.output <+: t.output

theorem IoFrame.refl (s : State) : IoFrame s s :=
  ⟨rfl, rfl, rfl, rfl, rfl, rfl, id, fun _ _ _ => rfl, List.suffix_refl _, List.prefix_refl _⟩

theorem IoFrame.trans {s t u : State} (h : IoFrame s t) (k : IoFrame t u) : IoFrame s u where
  regs := k.regs.trans h.regs
  pc := k.pc.trans h.pc
  cond := k.cond.trans h.cond
  running := k.running.trans h.running
  hasRun := k.hasRun.trans h.hasRun
  cfg := k.cfg.trans h.cfg
  wf hw := by
    have := k.wf (by rw [h.cfg]; exact h.wf hw)
    rwa [h.cfg] at this
  cells a h1 h2 := (k.cells a (by rwa [h.cfg]) (by rwa [h.cfg])).trans (h.cells a h1 h2)
  input := k.input.trans h.input
  output := h.output.trans k.output

theorem IoFrame.reg {s t : State} (h : IoFrame s t) (r : RegNum) : t.reg r = s.reg r := by
  simp [State.reg, h.regs]

theorem IoFrame.setInput (s : State) {es : List InputEvent} (h : es <:+ s.input) : IoFrame s (s.setInput es) :=
  ⟨rfl, rfl, rfl, rfl, rfl, rfl, id, fun _ _ _ => rfl, h, List.prefix_refl _⟩

theorem IoFrame.consolePut (b : Byte) (s : State) : IoFrame s (consolePut b s) :=
  ⟨rfl, rfl, rfl, rfl, rfl, rfl, id, fun _ _ _ => rfl, List.suffix_refl _, List.prefix_append _ _⟩

theorem IoFrame.consolePutAll (bs : List Byte) (s : State) : IoFrame s (consolePutAll bs s) :=
  ⟨rfl, rfl, rfl, rfl, rfl, rfl, id, fun _ _ _ => rfl, List.suffix_refl _, List.prefix_append _ _⟩

theorem IoFrame.setService (v : Option Service) (s : State) : IoFrame s (s.setService v) :=
  ⟨rfl, rfl, rfl, rfl, rfl, rfl, id, fun _ _ _ => rfl, List.suffix_refl _, List.prefix_refl _⟩

theorem IoFrame.setFault (e : FaultRecord) (s : State) : IoFrame s (s.setFault e) :=
  ⟨rfl, rfl, rfl, rfl, rfl, rfl, id, fun _ _ _ => rfl, List.suffix_refl _, List.prefix_refl _⟩

theorem setCell_wf {s : State} (h : Memory.wf s.cfg.memInit s.mem) (a v : Word) :
    Memory.wf s.cfg.memInit (s.setCell a v).mem := Memory.wf_put h a.isLt v

theorem keyboardWrite_frame (r : ConsoleAnswer) (s : State) :
    IoFrame s (keyboardWrite r s) ∧ (keyboardWrite r s).input = s.input ∧ (keyboardWrite r s).output = s.output ∧
      (keyboardWrite r s).fault = s.fault ∧ (keyboardWrite r s).service = s.service := by
  cases r with
  | char b =>
    refine ⟨⟨rfl, rfl, rfl, rfl, rfl, rfl, fun h => setCell_wf (setCell_wf h _ _) _ _, fun a h1 h2 => ?_,
      List.suffix_refl _, List.prefix_refl _⟩, rfl, rfl, rfl, rfl⟩
    simp [keyboardWrite, State.setCell_cell, h1, h2]
  | notReady =>
    refine ⟨⟨rfl, rfl, rfl, rfl, rfl, rfl, fun h => setCell_wf h _ _, fun a h1 _ => ?_,
      List.suffix_refl _, List.prefix_refl _⟩, rfl, rfl, rfl, rfl⟩
    simp [keyboardWrite, State.setCell_cell, h1]
  | error => exact ⟨IoFrame.refl s, rfl, rfl, rfl, rfl⟩

/-! ### MemRead -/

/-- At any address but KBSR_ADDR a read is the cell (R53). -/
theorem memRead_plain {a : Word} {s : State} (h : a ≠ s.cfg.kbsrAddr) : memRead a s = .value (s.cell a) s := by
  simp [memRead, h]

/-- What `memRead` keeps, whichever way it ends (R53, R54). -/
theorem memRead_frame (a : Word) (s : State) :
    (∃ v t, memRead a s = .value v t ∧ IoFrame s t ∧ t.output = s.output ∧ t.fault = s.fault ∧
      t.service = s.service ∧ ¬ ReadFails a s) ∨
    (∃ t, memRead a s = .inputError t ∧ t = s.setInput s.input.tail ∧ IoFrame s t ∧ ReadFails a s) := by
  by_cases ha : a = s.cfg.kbsrAddr
  · by_cases he : (pollSource s.input).1 = .error
    · right
      have hf := (pollSource_error_iff _).mp he
      obtain ⟨es, hes⟩ : ∃ es, s.input = .failure :: es := by
        cases hi : s.input with
        | nil => simp [hi] at hf
        | cons e es => exact ⟨es, by simpa [hi] using hf⟩
      refine ⟨_, ?_, rfl, IoFrame.setInput s (List.tail_suffix _), ha, hf⟩
      simp [memRead, ha, hes, pollSource, keyboardWrite]
    · left
      obtain ⟨hf, _, ho, hfl, hs⟩ := keyboardWrite_frame (pollSource s.input).1 (s.setInput (pollSource s.input).2)
      refine ⟨_, _, by simp only [memRead, ha, he, if_true, if_false]; rfl,
        (IoFrame.setInput s (pollSource_suffix _)).trans hf, ho, hfl, hs, fun h => he ?_⟩
      exact (pollSource_error_iff _).mpr h.2
  · exact .inl ⟨_, _, memRead_plain ha, IoFrame.refl s, rfl, rfl, rfl, fun h => ha h.1⟩

/-- The value of a read that does not fail, and the cells and source it leaves (R53, R54). -/
theorem memRead_effect {a v : Word} {s t : State} (hk : s.cfg.kbsrAddr ≠ s.cfg.kbdrAddr)
    (h : memRead a s = .value v t) : ReadEffect a v s t := by
  by_cases ha : a = s.cfg.kbsrAddr
  · right
    cases hi : s.input with
    | nil =>
      right
      simp [memRead, ha, hi, pollSource, keyboardWrite] at h
      obtain ⟨rfl, rfl⟩ := h
      exact ⟨ha, .inl rfl, rfl, rfl, by simp, fun x hx => by simp [State.setCell_cell, hx]⟩
    | cons e es =>
      cases e with
      | quiet =>
        right
        simp [memRead, ha, hi, pollSource, keyboardWrite] at h
        obtain ⟨rfl, rfl⟩ := h
        exact ⟨ha, .inr rfl, rfl, rfl, by simp, fun x hx => by simp [State.setCell_cell, hx]⟩
      | byte b =>
        left
        simp [memRead, ha, hi, pollSource, keyboardWrite, State.setCell_cell, hk] at h
        obtain ⟨rfl, rfl⟩ := h
        exact ⟨ha, b, es, rfl, rfl, rfl, by simp [State.setCell_cell, hk], by simp,
          fun x h1 h2 => by simp [State.setCell_cell, h1, h2]⟩
      | failure => simp [memRead, ha, hi, pollSource] at h
  · rw [memRead_plain ha] at h
    obtain ⟨rfl, rfl⟩ : s.cell a = v ∧ s = t := by simpa using h
    exact .inl ⟨ha, rfl, fun _ => rfl, rfl⟩

/-- A poll's word: what a read of KBSR_ADDR answers (R54). -/
theorem memRead_kbsr_value {v : Word} {s t : State} (hk : s.cfg.kbsrAddr ≠ s.cfg.kbdrAddr)
    (h : memRead s.cfg.kbsrAddr s = .value v t) : v = 0x8000 ∨ v = 0x0000 := by
  rcases memRead_effect hk h with ⟨h1, -⟩ | ⟨-, b, es, -, h1, -⟩ | ⟨-, -, h1, -⟩
  · exact absurd rfl h1
  · exact .inl h1
  · exact .inr h1

/-- A read of KBSR_ADDR with a byte there (R54). -/
theorem memRead_kbsr_byte {s : State} {b : Byte} {rest : List InputEvent} (hk : s.cfg.kbsrAddr ≠ s.cfg.kbdrAddr)
    (h : s.input = .byte b :: rest) : memRead s.cfg.kbsrAddr s =
      .value 0x8000 (((s.setInput rest).setCell s.cfg.kbsrAddr 0x8000).setCell s.cfg.kbdrAddr (zext b)) := by
  simp [memRead, h, pollSource, keyboardWrite, State.setCell_cell, hk]

/-- A read of KBSR_ADDR with no byte there (R54). -/
theorem memRead_kbsr_quiet {s : State} (h : s.input = [] ∨ s.input.head? = some .quiet) :
    memRead s.cfg.kbsrAddr s = .value 0x0000 ((s.setInput s.input.tail).setCell s.cfg.kbsrAddr 0x0000) := by
  cases hi : s.input with
  | nil => simp [memRead, hi, pollSource, keyboardWrite]
  | cons e es =>
    obtain rfl : e = .quiet := by simpa [hi] using h
    simp [memRead, hi, pollSource, keyboardWrite]

/-! ### withRead -/

theorem withRead_value {a v : Word} {s t : State} (h : memRead a s = .value v t) (k : Word → State → Result) :
    withRead a s k = k v t := by simp [withRead, h]

theorem withRead_inputError {a : Word} {s t : State} (h : memRead a s = .inputError t) (k : Word → State → Result) :
    withRead a s k = .next (raise .inputError t) := by simp [withRead, h]

/-- What `withRead` can do: go on with the value read, or raise InputError (R70). -/
theorem withRead_cases (a : Word) (s : State) (k : Word → State → Result) :
    (∃ v t, memRead a s = .value v t ∧ withRead a s k = k v t) ∨
    (ReadFails a s ∧ withRead a s k = .next ((s.setInput s.input.tail).setFault .inputError)) := by
  rcases memRead_frame a s with ⟨v, t, h, -⟩ | ⟨t, h, ht, -, hf⟩
  · exact .inl ⟨v, t, h, withRead_value h k⟩
  · refine .inr ⟨hf, ?_⟩
    rw [withRead_inputError h k, ht]
    rfl

theorem withRead_plain {a : Word} {s : State} (h : a ≠ s.cfg.kbsrAddr) (k : Word → State → Result) :
    withRead a s k = k (s.cell a) s := withRead_value (memRead_plain h) k

/-! ### The blocking reads and the string loops

Each answers a next state inside the frame; the fault record is kept, or is InputError and the source failed. -/

/-- How a service may leave the fault record and the service field. -/
def ServiceEnd (s t : State) : Prop :=
  (t.fault = s.fault ∨ (t.fault = .inputError ∧ .failure ∈ s.input ∧ t.service = s.service)) ∧
    (t.service = s.service ∨ (t.service ≠ none ∧ t.fault = s.fault))

theorem readFails_mem {a : Word} {s : State} (h : ReadFails a s) : .failure ∈ s.input :=
  List.mem_of_mem_head? (by simp [h.2])

theorem putsLoop_frame (n : Nat) (a : Word) (s : State) :
    ∃ t, putsLoop n a s = .next t ∧ IoFrame s t ∧ ServiceEnd s t := by
  induction n generalizing a s with
  | zero => exact ⟨_, rfl, IoFrame.setService _ _, .inl rfl, .inr ⟨by simp, rfl⟩⟩
  | succ n ih =>
    rcases memRead_frame a s with ⟨v, u, h, hf, ho, hfl, hs, -⟩ | ⟨u, h, hu, hf, hr⟩
    · simp only [putsLoop, withRead_value h]
      split
      · exact ⟨u, rfl, hf, .inl hfl, .inl hs⟩
      · obtain ⟨t, ht, hft, h1, h2⟩ := ih (a + 1) (consolePut (lowByte v) u)
        have hsub : u.input <:+ s.input := hf.input
        refine ⟨t, ht, (hf.trans (IoFrame.consolePut _ _)).trans hft, ?_, ?_⟩
        · simp only [consolePut_fault, consolePut_input, consolePut_service, hfl, hs] at h1
          exact h1.imp_right fun ⟨x, y, z⟩ => ⟨x, hsub.subset y, z⟩
        · simpa [hfl, hs] using h2
    · simp only [putsLoop, withRead_inputError h]
      subst hu
      exact ⟨_, rfl, hf.trans (IoFrame.setFault _ _), .inr ⟨rfl, readFails_mem hr, rfl⟩, .inl rfl⟩

theorem putspLoop_frame (n : Nat) (a : Word) (s : State) :
    ∃ t, putspLoop n a s = .next t ∧ IoFrame s t ∧ ServiceEnd s t := by
  induction n generalizing a s with
  | zero => exact ⟨_, rfl, IoFrame.setService _ _, .inl rfl, .inr ⟨by simp, rfl⟩⟩
  | succ n ih =>
    rcases memRead_frame a s with ⟨v, u, h, hf, ho, hfl, hs, -⟩ | ⟨u, h, hu, hf, hr⟩
    · simp only [putspLoop, withRead_value h]
      split
      · exact ⟨u, rfl, hf, .inl hfl, .inl hs⟩
      · split
        · exact ⟨_, rfl, hf.trans (IoFrame.consolePut _ _), .inl hfl, .inl hs⟩
        · obtain ⟨t, ht, hft, h1, h2⟩ := ih (a + 1) (consolePut (highByte v) (consolePut (lowByte v) u))
          have hsub : u.input <:+ s.input := hf.input
          refine ⟨t, ht, ((hf.trans (IoFrame.consolePut _ _)).trans (IoFrame.consolePut _ _)).trans hft, ?_, ?_⟩
          · simp only [consolePut_fault, consolePut_input, consolePut_service, hfl, hs] at h1
            exact h1.imp_right fun ⟨x, y, z⟩ => ⟨x, hsub.subset y, z⟩
          · simpa [hfl, hs] using h2
    · simp only [putspLoop, withRead_inputError h]
      subst hu
      exact ⟨_, rfl, hf.trans (IoFrame.setFault _ _), .inr ⟨rfl, readFails_mem hr, rfl⟩, .inl rfl⟩

/-- What the read of GETC can do (R153, R182, R201). -/
theorem getcRead_cases (s : State) :
    (∃ b, (getSource s.input).1 = .char b ∧
      getcRead s = .next (writeWithFlags 0 (zext b) (s.setInput (getSource s.input).2))) ∨
    ((getSource s.input).1 = .notReady ∧
      getcRead s = .next ((s.setInput (getSource s.input).2).setService (some .getc))) ∨
    ((getSource s.input).1 = .error ∧
      getcRead s = .next ((s.setInput (getSource s.input).2).setFault .inputError)) := by
  cases h : (getSource s.input).1 <;> simp [getcRead, h]

/-- What the read of IN can do (R157, R182, R201). -/
theorem inRead_cases (s : State) :
    (∃ b, (getSource s.input).1 = .char b ∧
      inRead s = .next (writeWithFlags 0 (zext b) (consolePut b (s.setInput (getSource s.input).2)))) ∨
    ((getSource s.input).1 = .notReady ∧
      inRead s = .next ((s.setInput (getSource s.input).2).setService (some .inChar))) ∨
    ((getSource s.input).1 = .error ∧
      inRead s = .next ((s.setInput (getSource s.input).2).setFault .inputError)) := by
  cases h : (getSource s.input).1 <;> simp [inRead, h]

/-! ### Flags -/

/-- `flagOf` is R28's three cases. -/
theorem flagOf_signFlag (v : Word) : SignFlag v (flagOf v) := by
  refine ⟨fun h => by rw [flagOf, if_pos h], fun h => ?_, fun h0 h => by rw [flagOf, if_neg h0, h]; rfl⟩
  have h0 : v ≠ 0x0000 := by rintro rfl; simp at h
  rw [flagOf, if_neg h0, if_pos h]

theorem flagOf_legal (v : Word) : CondLegal (flagOf v) := by
  unfold flagOf CondLegal
  split
  · simp
  · split <;> simp

/-- What `x[d] <- v; setcc(v)` leaves, over any state that agrees with `s` on what it does not write. -/
theorem writeWithFlags_writesDest (d : RegNum) (v : Word) (s : State) : WritesDest d v s (writeWithFlags d v s) :=
  ⟨⟨by simp, fun r hr => by simp [State.setReg_reg_of_ne s v hr]⟩, by simpa using flagOf_signFlag v, rfl,
    rfl, rfl, rfl, rfl, rfl⟩

end Sys2Proof.Machine
end

