-- ==== Sys2Proof/Laws/Exec.lean ====
section
/-!
SUPPORT. What an instruction and a step can do, said once: `exec_frame`, `resume_frame` and `step_frame`. Proofs about
all instructions or all steps cite these and unfold neither.
-/

namespace Sys2Proof.Machine

/-- What every instruction keeps, and the ways it may leave the flags, `running`, the fault record and the service. -/
structure ExecFrame (i : Instr) (s t : State) : Prop where
  wf : Memory.wf s.cfg.memInit s.mem → Memory.wf s.cfg.memInit t.mem
  cond : t.cond = s.cond ∨ ∃ v, t.cond = flagOf v
  cfg : t.cfg = s.cfg
  hasRun : t.hasRun = s.hasRun
  running : t.running = s.running ∨ i = .trapHalt
  fault : t.fault = s.fault ∨
    ((∃ code, i = .trapUnrecognised code ∧ t.fault = .unrecognizedTrapCode code) ∨
      (t.fault = .inputError ∧ .failure ∈ s.input ∧ readsMemoryOrSource i = true)) ∧
    t.service = s.service ∧ t.running = s.running
  service : t.service = s.service ∨ (t.service ≠ none ∧ t.fault = s.fault ∧ t.running = s.running)
  input : t.input <:+ s.input
  output : s.output <+: t.output

/-- From the frame of memory reads and console use, with the fault record and the service kept. -/
theorem ExecFrame.ofIo (i : Instr) {s u : State} (h : IoFrame s u) (hf : u.fault = s.fault)
    (hs : u.service = s.service) : ExecFrame i s u :=
  ⟨h.wf, .inl h.cond, h.cfg, h.hasRun, .inl h.running, .inl hf, .inl hs, h.input, h.output⟩

/-- The same, and then a register written with its flags. -/
theorem ExecFrame.ofWrite (i : Instr) {s u : State} (h : IoFrame s u) (hf : u.fault = s.fault)
    (hs : u.service = s.service) (d : RegNum) (v : Word) : ExecFrame i s (writeWithFlags d v u) :=
  ⟨h.wf, .inr ⟨v, rfl⟩, h.cfg, h.hasRun, .inl h.running, .inl hf, .inl hs, h.input, h.output⟩

/-- The same, and then a cell written. -/
theorem ExecFrame.ofStore (i : Instr) {s u : State} (h : IoFrame s u) (hf : u.fault = s.fault)
    (hs : u.service = s.service) (a v : Word) : ExecFrame i s (memWrite a v u) := by
  refine ⟨fun hw => ?_, .inl h.cond, h.cfg, h.hasRun, .inl h.running, .inl hf, .inl hs, h.input, h.output⟩
  have := setCell_wf (s := u) (by rw [h.cfg]; exact h.wf hw) a v
  rwa [h.cfg] at this

/-- The frame, and then InputError raised. -/
theorem ExecFrame.ofInputError {i : Instr} {s u : State} (h : IoFrame s u) (hs : u.service = s.service)
    (hm : .failure ∈ s.input) (hi : readsMemoryOrSource i = true) : ExecFrame i s (raise .inputError u) :=
  ⟨h.wf, .inl h.cond, h.cfg, h.hasRun, .inl h.running, .inr ⟨.inr ⟨rfl, hm, hi⟩, hs, h.running⟩, .inl hs, h.input,
    h.output⟩

/-- The frame, with a service's end. -/
theorem ExecFrame.ofService {i : Instr} {s t : State} (h : IoFrame s t) (he : ServiceEnd s t)
    (hi : readsMemoryOrSource i = true) : ExecFrame i s t :=
  ⟨h.wf, .inl h.cond, h.cfg, h.hasRun, .inl h.running,
    he.1.imp_right fun ⟨a, b, c⟩ => ⟨.inr ⟨a, b, hi⟩, c, h.running⟩,
    he.2.imp_right fun ⟨a, b⟩ => ⟨a, b, h.running⟩, h.input, h.output⟩

/-- An instruction that reads a word and goes on with it keeps the frame if what it goes on with does. -/
theorem withRead_execFrame (i : Instr) (a : Word) (s : State) (k : Word → State → Result)
    (hi : readsMemoryOrSource i = true)
    (hk : ∀ v u, IoFrame s u → u.fault = s.fault → u.service = s.service → ∃ t, k v u = .next t ∧ ExecFrame i s t) :
    ∃ t, withRead a s k = .next t ∧ ExecFrame i s t := by
  rcases memRead_frame a s with ⟨v, u, h, hf, -, hfl, hs, -⟩ | ⟨u, h, hu, hf, hr⟩
  · rw [withRead_value h]
    exact hk v u hf hfl hs
  · rw [withRead_inputError h]
    exact ⟨_, rfl, .ofInputError hf (by subst hu; rfl) (readFails_mem hr) hi⟩

theorem getcRead_frame (s : State) : ∃ t, getcRead s = .next t ∧ ExecFrame .trapGetc s t := by
  have hI := IoFrame.setInput s (getSource_suffix s.input)
  rcases getcRead_cases s with ⟨b, h, e⟩ | ⟨h, e⟩ | ⟨h, e⟩ <;> refine ⟨_, e, ?_⟩
  · exact .ofWrite _ hI rfl rfl _ _
  · exact .ofService (hI.trans (IoFrame.setService _ _)) ⟨.inl rfl, .inr ⟨by simp, rfl⟩⟩ rfl
  · exact .ofInputError hI rfl (getSource_error_mem h) rfl

theorem inRead_frame (s : State) : ∃ t, inRead s = .next t ∧ ExecFrame .trapIn s t := by
  have hI := IoFrame.setInput s (getSource_suffix s.input)
  rcases inRead_cases s with ⟨b, h, e⟩ | ⟨h, e⟩ | ⟨h, e⟩ <;> refine ⟨_, e, ?_⟩
  · exact .ofWrite _ (hI.trans (IoFrame.consolePut _ _)) rfl rfl _ _
  · exact .ofService (hI.trans (IoFrame.setService _ _)) ⟨.inl rfl, .inr ⟨by simp, rfl⟩⟩ rfl
  · exact .ofInputError hI rfl (getSource_error_mem h) rfl

/-- What an instruction can do: it answers a next state, inside the frame. -/
theorem exec_frame (i : Instr) (s : State) : ∃ t, exec i s = .next t ∧ ExecFrame i s t := by
  have R := IoFrame.refl s
  cases i with
  | br n z p o =>
    refine ⟨_, rfl, ?_⟩
    split <;> constructor <;> simp
  | addReg | addImm | andReg | andImm | not | lea => exact ⟨_, rfl, .ofWrite _ R rfl rfl _ _⟩
  | ld | ldr => exact withRead_execFrame _ _ _ _ rfl fun v u a b c => ⟨_, rfl, .ofWrite _ a b c _ _⟩
  | ldi d o =>
    refine withRead_execFrame _ _ _ _ rfl fun v u a b c => ?_
    rcases memRead_frame v u with ⟨w, t, h, hf, -, hfl, hs, -⟩ | ⟨t, h, hu, hf, hr⟩
    · rw [withRead_value h]
      exact ⟨_, rfl, .ofWrite _ (a.trans hf) (hfl.trans b) (hs.trans c) _ _⟩
    · rw [withRead_inputError h]
      exact ⟨_, rfl, .ofInputError (a.trans hf) (by subst hu; exact c) (a.input.subset (readFails_mem hr)) rfl⟩
  | st | str => exact ⟨_, rfl, .ofStore _ R rfl rfl _ _⟩
  | sti => exact withRead_execFrame _ _ _ _ rfl fun v u a b c => ⟨_, rfl, .ofStore _ a b c _ _⟩
  | jsr | jsrr | jmp | trapHalt | trapUnrecognised => exact ⟨_, rfl, by constructor <;> simp⟩
  | res8 | res13 => exact ⟨_, rfl, .ofIo _ R rfl rfl⟩
  | trapGetc => exact getcRead_frame s
  | trapIn =>
    obtain ⟨t, e, h⟩ := inRead_frame (consolePutAll s.cfg.inPrompt s)
    exact ⟨t, e, h.wf, h.cond, h.cfg, h.hasRun, h.running, h.fault, h.service, h.input,
      (List.prefix_append _ _).trans h.output⟩
  | trapOut => exact ⟨_, rfl, .ofIo _ (IoFrame.consolePut _ _) rfl rfl⟩
  | trapPuts =>
    obtain ⟨t, e, h, k⟩ := putsLoop_frame stringFuel (s.reg 0) s
    exact ⟨t, e, .ofService h k rfl⟩
  | trapPutsp =>
    obtain ⟨t, e, h, k⟩ := putspLoop_frame stringFuel (s.reg 0) s
    exact ⟨t, e, .ofService h k rfl⟩

/-- What going on with a service can do: it is inside the frame of that service's instruction, from the state that
has left the service. -/
theorem resume_frame (v : Service) (s : State) :
    ∃ t i, resume v s = .next t ∧ ExecFrame i (s.setService none) t ∧ i ≠ .trapHalt := by
  cases v with
  | getc =>
    obtain ⟨t, e, h⟩ := getcRead_frame (s.setService none)
    exact ⟨t, _, e, h, by simp⟩
  | inChar =>
    obtain ⟨t, e, h⟩ := inRead_frame (s.setService none)
    exact ⟨t, _, e, h, by simp⟩
  | puts a =>
    obtain ⟨t, e, h, k⟩ := putsLoop_frame stringFuel a (s.setService none)
    exact ⟨t, .trapPuts, e, .ofService h k rfl, by simp⟩
  | putsp a =>
    obtain ⟨t, e, h, k⟩ := putspLoop_frame stringFuel a (s.setService none)
    exact ⟨t, .trapPutsp, e, .ofService h k rfl, by simp⟩

/-- The state an instruction's frame starts from, inside a step from `s`: `s` but for pc, the service left, and what
the fetch's read leaves. -/
structure Dispatched (s u : State) : Prop where
  service : u.service = none
  fault : u.fault = s.fault
  running : u.running = s.running
  cond : u.cond = s.cond
  cfg : u.cfg = s.cfg
  hasRun : u.hasRun = s.hasRun
  wf : Memory.wf s.cfg.memInit s.mem → Memory.wf s.cfg.memInit u.mem
  input : u.input <:+ s.input
  output : s.output <+: u.output

/-- What a step can do: nothing, when no run is going on; else what one instruction can do. -/
theorem step_frame (s : State) : ∃ t, step s = .next t ∧
    (t = s ∨ (s.active = true ∧ ∃ i u, Dispatched s u ∧ ExecFrame i u t)) := by
  unfold step
  split
  · next ha =>
    cases hs : s.service with
    | some v =>
      obtain ⟨t, i, e, h, -⟩ := resume_frame v s
      exact ⟨t, e, .inr ⟨ha, i, s.setService none,
        ⟨rfl, rfl, rfl, rfl, rfl, rfl, id, List.suffix_refl _, List.prefix_refl _⟩, h⟩⟩
    | none =>
      simp only [fetch]
      rcases memRead_frame s.pc s with ⟨v, u, h, hf, -, hfl, hs', -⟩ | ⟨u, h, hu, hf, hr⟩
      · rw [withRead_value h]
        obtain ⟨t, e, h⟩ := exec_frame (decode u.cfg.opcodeMap v) (u.setPc (u.pc + 1))
        exact ⟨t, e, .inr ⟨ha, decode u.cfg.opcodeMap v, u.setPc (u.pc + 1), ⟨by simp [hs', hs], hfl, hf.running,
          hf.cond, hf.cfg, hf.hasRun, hf.wf, hf.input, hf.output⟩, h⟩⟩
      · rw [withRead_inputError h]
        exact ⟨_, rfl, .inr ⟨ha, .trapGetc, s,
          ⟨hs, rfl, rfl, rfl, rfl, rfl, id, List.suffix_refl _, List.prefix_refl _⟩,
          .ofInputError hf (by subst hu; rfl) (readFails_mem hr) rfl⟩⟩
  · exact ⟨s, rfl, .inl rfl⟩

end Sys2Proof.Machine
end

