-- ==== Sys2Proof/Laws/HostOps.lean ====
section
/-!
SUPPORT. What Load does (45_run_loop_and_host R176): the words of an image, the cells they land in, and that nothing
but memory changes.
-/

namespace Sys2Proof.Machine

/-- Big-endian: the first byte is the more significant (R60). -/
theorem imageWord_toNat (hi lo : Byte) : (imageWord hi lo).toNat = 256 * hi.toNat + lo.toNat := by
  show (hi ++ lo).toNat = _
  rw [BitVec.toNat_append, ← Nat.shiftLeft_add_eq_or_of_lt lo.isLt, Nat.shiftLeft_eq]
  omega

theorem loadWords_frame (a : Word) (l : List Byte) (s : State) : ∃ m, loadWords a l s = { s with mem := m } := by
  induction a, l, s using loadWords.induct with
  | case1 a hi lo rest s ih =>
    obtain ⟨m, h⟩ := ih
    exact ⟨m, by rw [loadWords, h]; rfl⟩
  | case2 => exact ⟨_, rfl⟩
  | case3 => exact ⟨_, rfl⟩

/-- An image that fits lands word by word from `a` on, and no other cell changes. -/
theorem loadWords_cells (l : List Byte) (a : Word) (s : State) (h : l.length / 2 ≤ 65536 - a.toNat) :
    (∀ i, i < l.length / 2 → (loadWords a l s).cell (BitVec.ofNat 16 (a.toNat + i)) =
      imageWord (l.getD (2 * i) 0) (l.getD (2 * i + 1) 0)) ∧
    ∀ x : Word, x.toNat < a.toNat ∨ a.toNat + l.length / 2 ≤ x.toNat → (loadWords a l s).cell x = s.cell x := by
  induction a, l, s using loadWords.induct with
  | case1 a hi lo rest s ih =>
    have hlen : (hi :: lo :: rest).length / 2 = rest.length / 2 + 1 := by simp; omega
    rw [hlen] at h ⊢
    rw [loadWords]
    have ha := a.isLt
    by_cases hlast : a.toNat = 65535
    · have hr : rest.length / 2 = 0 := by omega
      have ha1 : (a + 1).toNat = 0 := by bv_omega
      have hs : ∀ x : Word, (loadWords (a + 1) rest (memWrite a (imageWord hi lo) s)).cell x =
          (memWrite a (imageWord hi lo) s).cell x := fun x => (ih (by omega)).2 x (by omega)
      refine ⟨fun i hi' => ?_, fun x hx => ?_⟩
      · obtain rfl : i = 0 := by omega
        rw [hs]
        simp
      · rw [hs]
        exact State.setCell_cell_of_ne _ _ (by rintro rfl; omega)
    · have ha1 : (a + 1).toNat = a.toNat + 1 := by bv_omega
      obtain ⟨h1, h2⟩ := ih (by omega)
      refine ⟨fun i hi' => ?_, fun x hx => ?_⟩
      · cases i with
        | zero =>
          rw [h2 _ (by left; simp; omega)]
          simp
        | succ i =>
          have := h1 i (by omega)
          rw [ha1, show a.toNat + 1 + i = a.toNat + (i + 1) by omega] at this
          rw [this]
          simp [Nat.mul_add, show 2 * i + 2 + 1 = 2 * i + 1 + 1 + 1 by omega]
      · rw [h2 x (by omega)]
        exact State.setCell_cell_of_ne _ _ (by rintro rfl; omega)
  | case2 a s b => exact ⟨fun i hi => by simp at hi, fun x _ => rfl⟩
  | case3 => exact ⟨fun i hi => by simp at hi, fun x _ => rfl⟩

/-- What a reset by the host can do: it is refused during a run, else the core is as after reset (R185, R230). -/
theorem hostReset_cases (s : State) :
    (s.active = true ∧ hostReset s = .refused .resetDuringRun) ∨
    (s.active = false ∧ hostReset s = .next { State.resetOf s.cfg with input := s.input, output := s.output }) := by
  cases h : s.active <;> simp [hostReset, h]

end Sys2Proof.Machine
end

