-- ==== Sys2Proof/Laws/PerInstr.lean ====
section
/-!
SUPPORT. Statements made per instruction. The family RowOfEncoding: the word an instruction encodes to matches the
instruction's row of the opcode table (30_encoding R95).
-/

namespace Sys2Proof.Laws.RowOfEncoding

/-- The encoded word, under the mask of the instruction's row, is the row's match value, under every OPCODE_MAP. -/
def Statement (i : Instr) : Prop := ∀ m : OpcodeMap, encode m i &&& rowMask i = rowMatch m i

theorem and_layoutWord (o o' : BitVec 4) (r r' : BitVec 12) :
    layoutWord o r &&& layoutWord o' r' = layoutWord (o &&& o') (r &&& r') := BitVec.and_append

/-- A row's test, split into the opcode and the bits below it. -/
theorem of_low {i : Instr} (low : BitVec 12) (h : rowMask i = layoutWord 0xF low)
    (h' : encodeLow i &&& low = rowLow i) : Statement i := by
  intro m
  have hF : ∀ x : BitVec 4, x &&& 0xF = x := by decide
  rw [encode, rowMatch, h, and_layoutWord, h', hF]

/-- A row that tests the opcode alone. -/
theorem of_opcode {i : Instr} (h : rowMask i = 0xF000) (h' : rowLow i = 0) : Statement i :=
  of_low 0 h (by rw [h']; simp)

theorem and_layoutRegs (a a' b b' : RegNum) (c c' : BitVec 6) :
    layoutRegs a b c &&& layoutRegs a' b' c' = layoutRegs (a &&& a') (b &&& b') (c &&& c') := by
  have h : layoutRegs a b c &&& layoutRegs a' b' c' = (a ++ b ++ c) &&& (a' ++ b' ++ c') := rfl
  rw [h, BitVec.and_append, BitVec.and_append]
  rfl

/-- The mode bit of OPR and OPI. -/
theorem mode_low (a b : RegNum) (c : BitVec 6) : layoutRegs a b c &&& 0x020 = layoutRegs 0 0 (c &&& 0x20) := by
  have h : (0x020 : BitVec 12) = layoutRegs 0 0 0x20 := rfl
  rw [h, and_layoutRegs]
  simp

theorem opr_low (a b c : RegNum) : layoutRegs a b (layoutOpr c) &&& 0x020 = 0x000 := by
  have h : ∀ c, layoutOpr c &&& 0x20 = 0 := by decide
  rw [mode_low, h]
  rfl

theorem opi_low (a b : RegNum) (c : BitVec 5) : layoutRegs a b (layoutOpi c) &&& 0x020 = 0x020 := by
  have h : ∀ c, layoutOpi c &&& 0x20 = 0x20 := by decide
  rw [mode_low, h]
  rfl

theorem br (n z p : Bool) (o : BitVec 9) : Statement (.br n z p o) := of_opcode rfl rfl
theorem addReg (d a b : RegNum) : Statement (.addReg d a b) := of_low 0x020 rfl (opr_low d a b)
theorem addImm (d a : RegNum) (i : BitVec 5) : Statement (.addImm d a i) := of_low 0x020 rfl (opi_low d a i)
theorem ld (d : RegNum) (o : BitVec 9) : Statement (.ld d o) := of_opcode rfl rfl
theorem st (r : RegNum) (o : BitVec 9) : Statement (.st r o) := of_opcode rfl rfl
theorem jsr (o : BitVec 11) : Statement (.jsr o) := of_low 0x800 rfl (by
  have h : (0x800 : BitVec 12) = (1 : BitVec 1) ++ (0 : BitVec 11) := rfl
  show ((1 : BitVec 1) ++ o) &&& (0x800 : BitVec 12) = 0x800
  rw [h, BitVec.and_append]
  simp)
theorem jsrr (b : RegNum) : Statement (.jsrr b) := of_low 0x800 rfl (by revert b; decide)
theorem andReg (d a b : RegNum) : Statement (.andReg d a b) := of_low 0x020 rfl (opr_low d a b)
theorem andImm (d a : RegNum) (i : BitVec 5) : Statement (.andImm d a i) := of_low 0x020 rfl (opi_low d a i)
theorem ldr (d b : RegNum) (o : BitVec 6) : Statement (.ldr d b o) := of_opcode rfl rfl
theorem str (r b : RegNum) (o : BitVec 6) : Statement (.str r b o) := of_opcode rfl rfl
theorem res8 (x : BitVec 12) : Statement (.res8 x) := of_opcode rfl rfl
theorem not (d r : RegNum) : Statement (.not d r) := of_opcode rfl rfl
theorem ldi (d : RegNum) (o : BitVec 9) : Statement (.ldi d o) := of_opcode rfl rfl
theorem sti (r : RegNum) (o : BitVec 9) : Statement (.sti r o) := of_opcode rfl rfl
theorem jmp (b : RegNum) : Statement (.jmp b) := of_opcode rfl rfl
theorem res13 (x : BitVec 12) : Statement (.res13 x) := of_opcode rfl rfl
theorem lea (d : RegNum) (o : BitVec 9) : Statement (.lea d o) := of_opcode rfl rfl
theorem trapGetc : Statement .trapGetc := of_low 0x0FF rfl (by decide)
theorem trapOut : Statement .trapOut := of_low 0x0FF rfl (by decide)
theorem trapPuts : Statement .trapPuts := of_low 0x0FF rfl (by decide)
theorem trapIn : Statement .trapIn := of_low 0x0FF rfl (by decide)
theorem trapPutsp : Statement .trapPutsp := of_low 0x0FF rfl (by decide)
theorem trapHalt : Statement .trapHalt := of_low 0x0FF rfl (by decide)
theorem trapUnrecognised (c : Byte) : Statement (.trapUnrecognised c) := of_opcode rfl rfl

end Sys2Proof.Laws.RowOfEncoding
end

