-- ==== Sys2Proof/Laws/Strings.lean ====
section
/-!
SUPPORT. What the two string loops write (43_trap R155, R158): over cells away from KBSR_ADDR a loop writes the cells'
bytes and goes on; PUTSP never passes KBSR_ADDR.
-/

namespace Sys2Proof.Machine

theorem addr_succ (a : Word) (k : Nat) : a + 1 + BitVec.ofNat 16 k = a + BitVec.ofNat 16 (k + 1) := by
  apply BitVec.eq_of_toNat_eq
  simp
  omega

/-- PUTS over `n` non-zero cells away from KBSR_ADDR writes their low bytes. -/
theorem putsLoop_prefix (f n : Nat) (a : Word) (s : State)
    (h : ∀ k, k < n → s.cell (a + BitVec.ofNat 16 k) ≠ 0 ∧ a + BitVec.ofNat 16 k ≠ s.cfg.kbsrAddr) :
    putsLoop (n + f) a s = putsLoop f (a + BitVec.ofNat 16 n) (consolePutAll
      ((List.range n).map (fun k => lowByte (s.cell (a + BitVec.ofNat 16 k)))) s) := by
  induction n generalizing a s with
  | zero => simp [consolePutAll]
  | succ n ih =>
    rw [show n + 1 + f = (n + f) + 1 by omega]
    obtain ⟨h0, h1⟩ := h 0 (by omega)
    simp only [BitVec.ofNat_eq_ofNat, BitVec.add_zero] at h0 h1
    rw [putsLoop, withRead_plain h1, if_neg (by exact h0), ih]
    · rw [addr_succ]
      congr 1
      simp only [consolePut_cell, addr_succ]
      simp only [consolePutAll, consolePut, List.range_succ_eq_map, List.map_cons, List.map_map, Function.comp_def,
        List.append_assoc, List.cons_append, List.nil_append, BitVec.add_zero]
    · intro k hk
      rw [addr_succ]
      exact h (k + 1) (by omega)

/-- PUTSP over `n` cells of two non-zero bytes away from KBSR_ADDR writes both bytes of each. -/
theorem putspLoop_prefix (f n : Nat) (a : Word) (s : State)
    (h : ∀ k, k < n → lowByte (s.cell (a + BitVec.ofNat 16 k)) ≠ 0 ∧
      highByte (s.cell (a + BitVec.ofNat 16 k)) ≠ 0 ∧ a + BitVec.ofNat 16 k ≠ s.cfg.kbsrAddr) :
    putspLoop (n + f) a s = putspLoop f (a + BitVec.ofNat 16 n) (consolePutAll
      ((List.range n).flatMap (fun k =>
        [lowByte (s.cell (a + BitVec.ofNat 16 k)), highByte (s.cell (a + BitVec.ofNat 16 k))])) s) := by
  induction n generalizing a s with
  | zero => simp [consolePutAll]
  | succ n ih =>
    rw [show n + 1 + f = (n + f) + 1 by omega]
    obtain ⟨h0, h1, h2⟩ := h 0 (by omega)
    simp only [BitVec.ofNat_eq_ofNat, BitVec.add_zero] at h0 h1 h2
    rw [putspLoop, withRead_plain h2, if_neg (by exact h0), if_neg (by exact h1), ih]
    · rw [addr_succ]
      congr 1
      simp only [consolePut_cell, addr_succ]
      simp only [consolePutAll, consolePut, List.range_succ_eq_map, List.flatMap_cons, List.flatMap_map,
        List.append_assoc, List.cons_append, List.nil_append, BitVec.add_zero]
    · intro k hk
      rw [addr_succ]
      exact h (k + 1) (by omega)

/-- PUTSP ends at KBSR_ADDR at the latest, since a poll's word has a zero low byte (R54). -/
theorem putspLoop_ends (n : Nat) (a : Word) (s : State) (hk : s.cfg.kbsrAddr ≠ s.cfg.kbdrAddr)
    (h : (s.cfg.kbsrAddr - a).toNat < n) : ∃ t, putspLoop n a s = .next t ∧ t.service = s.service := by
  induction n generalizing a s with
  | zero => omega
  | succ n ih =>
    rw [putspLoop]
    rcases memRead_frame a s with ⟨v, u, e, hf, -, -, hs, -⟩ | ⟨u, e, hu, -, -⟩
    · rw [withRead_value e]
      by_cases ha : a = s.cfg.kbsrAddr
      · subst ha
        have hv : lowByte v = 0 := by rcases memRead_kbsr_value hk e with rfl | rfl <;> decide
        rw [if_pos hv]
        exact ⟨u, rfl, hs⟩
      · split
        · exact ⟨_, rfl, hs⟩
        · split
          · exact ⟨_, rfl, hs⟩
          · have hd : s.cfg.kbsrAddr - a ≠ 0 := fun h => ha (by bv_omega)
            obtain ⟨t, e, h⟩ := ih (a + 1) (consolePut (highByte v) (consolePut (lowByte v) u))
              (by simpa [hf.cfg] using hk) (by simp only [consolePut_cfg, hf.cfg]; bv_omega)
            exact ⟨t, e, h.trans hs⟩
    · rw [withRead_inputError e]
      subst hu
      exact ⟨_, rfl, rfl⟩

end Sys2Proof.Machine
end

