-- ==== Sys2Proof/Tests/Slice0.lean ====
section
/-!
SUPPORT. Tests. Expected results are the spec's: its layouts (30_encoding R82), its test vectors (95_test_vectors,
named in each comment) and its worked examples. Then, for each statement with hypotheses, a witness of them.
-/

namespace Sys2Proof.Tests

open Sys2Proof.Machine

/-! ### Well-formedness -/

/-- The one check refuses each service code and accepts its two neighbours (R161). -/
theorem test_wellFormed_refuses_service_codes :
    (Instr.trapUnrecognised 0x20).wellFormed = false ∧ (Instr.trapUnrecognised 0x25).wellFormed = false ∧
    (Instr.trapUnrecognised 0x1F).wellFormed = true ∧ (Instr.trapUnrecognised 0x26).wellFormed = true := by decide

/-! ### Decoding, words written out from R82 and R86 -/

/-- Decoding and encoding under the default OPCODE_MAP. -/
abbrev decodeWord : Word → Instr := decode opcodeMapDefault
abbrev encodeDefault : Instr → Word := encode opcodeMapDefault

theorem test_decode_br : decodeWord 0b0000_1_0_1_100000001 = .br true false true 0b100000001 := by decide
theorem test_decode_addReg : decodeWord 0b0001_101_011_0_00_110 = .addReg 5 3 6 := by decide
theorem test_decode_addImm : decodeWord 0b0001_010_100_1_10100 = .addImm 2 4 0b10100 := by decide
theorem test_decode_ld : decodeWord 0b0010_001_000000010 = .ld 1 2 := by decide
theorem test_decode_st : decodeWord 0b0011_011_111111111 = .st 3 0b111111111 := by decide
theorem test_decode_jsr : decodeWord 0b0100_1_10000000000 = .jsr 0b10000000000 := by decide
theorem test_decode_jsrr : decodeWord 0b0100_0_00_011_000000 = .jsrr 3 := by decide
theorem test_decode_andReg : decodeWord 0b0101_000_001_0_00_010 = .andReg 0 1 2 := by decide
theorem test_decode_andImm : decodeWord 0b0101_011_101_1_10000 = .andImm 3 5 0b10000 := by decide
theorem test_decode_ldr : decodeWord 0b0110_001_010_111110 = .ldr 1 2 0b111110 := by decide
theorem test_decode_str : decodeWord 0b0111_100_010_011111 = .str 4 2 0b011111 := by decide
theorem test_decode_res8 : decodeWord 0b1000_000000000000 = .res8 0 := by decide
theorem test_decode_not : decodeWord 0b1001_000_001_111111 = .not 0 1 := by decide
theorem test_decode_ldi : decodeWord 0b1010_110_000000001 = .ldi 6 1 := by decide
theorem test_decode_sti : decodeWord 0b1011_101_100000000 = .sti 5 0b100000000 := by decide
theorem test_decode_jmp : decodeWord 0b1100_000_111_000000 = .jmp 7 := by decide
theorem test_decode_res13 : decodeWord 0b1101_111111111111 = .res13 0xFFF := by decide
theorem test_decode_lea : decodeWord 0b1110_101_011111111 = .lea 5 255 := by decide
theorem test_decode_traps :
    decodeWord 0b1111_0000_00100000 = .trapGetc ∧ decodeWord 0b1111_0000_00100001 = .trapOut ∧
    decodeWord 0b1111_0000_00100010 = .trapPuts ∧ decodeWord 0b1111_0000_00100011 = .trapIn ∧
    decodeWord 0b1111_0000_00100100 = .trapPutsp ∧ decodeWord 0b1111_0000_00100101 = .trapHalt ∧
    decodeWord 0b1111_0000_00100110 = .trapUnrecognised 0x26 ∧ decodeWord 0b1111_0000_00000000 = .trapUnrecognised 0 := by
  decide

/-- Bits shown as constants are not looked at (V4, V12, V19, V63). -/
theorem test_decode_ignores_constant_bits :
    decodeWord 0x105A = decodeWord 0x1042 ∧ decodeWord 0x9040 = decodeWord 0x907F ∧ decodeWord 0xCEBF = decodeWord 0xC080 ∧
    decodeWord 0xF120 = .trapGetc ∧ decodeWord 0b0100_0_11_011_111111 = .jsrr 3 := by decide

/-- The encoder gives the spec's own words (R93, R94 and the examples of the instruction rules). -/
theorem test_encode_examples :
    encodeDefault (.addReg 0 1 2) = 0x1042 ∧ encodeDefault (.addImm 2 4 0b10100) = 0x1534 ∧ encodeDefault (.not 0 1) = 0x907F ∧
    encodeDefault (.jmp 7) = 0xC1C0 ∧ encodeDefault (.jsrr 3) = 0x40C0 ∧ encodeDefault (.br false true false 3) = 0x0403 ∧
    encodeDefault .trapHalt = 0xF025 := by decide

/-- The default map as R86 lists it, and as the opcode table's match values show it; one row per secondary selector. -/
theorem test_rows :
    opcodeMapDefault.toList.map (opcodeNumber opcodeMapDefault) = [0, 1, 2, 3, 4, 5, 6, 7, 8, 9, 10, 11, 12, 13, 14, 15] ∧
    rowMatch opcodeMapDefault (.addImm 0 0 0) = 0x1020 ∧ rowMatch opcodeMapDefault (.jsr 0) = 0x4800 ∧
    rowMatch opcodeMapDefault (.jsrr 0) = 0x4000 ∧ rowMatch opcodeMapDefault (.not 0 0) = 0x9000 ∧
    rowMatch opcodeMapDefault .trapHalt = 0xF025 := by decide

/-- Another legal map, ADD and BR exchanged: the same words stand for other instructions (R9, D3). -/
def otherMap : OpcodeMap :=
  #v[.add, .br, .ld, .st, .jsr, .and, .ldr, .str, .reserved8, .not, .ldi, .sti, .jmp, .reserved13, .lea, .trap]

theorem test_other_map :
    decode otherMap 0x0042 = .addReg 0 1 2 ∧ encode otherMap (.br false true false 3) = 0x1403 ∧
    decode otherMap 0x8001 = .res8 1 := by decide

/-- A row of 16 bits is one word; nothing is longer (R80). -/
theorem test_decodeTableWord :
    decodeTableWord 16 0x4805 = some (.jsr 5) ∧ decodeTableWord 32 0x4805 = none := by decide

/-- S8. -/
theorem test_sext :
    sext (0x14 : BitVec 5) = 0xFFF4 ∧ sext (0x0F : BitVec 5) = 0x000F ∧ sext (0x20 : BitVec 6) = 0xFFE0 ∧
    sext (0x100 : BitVec 9) = 0xFF00 ∧ sext (0x0FF : BitVec 9) = 0x00FF ∧ sext (0x400 : BitVec 11) = 0xFC00 ∧
    sext (0x8000 : Word) = 0x8000 := by decide

/-- S9. -/
theorem test_setcc :
    flagOf 0x0000 = condZ ∧ flagOf 0x0001 = condP ∧ flagOf 0x7FFF = condP ∧ flagOf 0x8000 = condN ∧
    flagOf 0xFFFF = condN := by decide

/-! ### One step -/

/-- The reset machine with the run begun and the word `w` at `pc`. -/
def start (pc w : Word) : State := (State.reset.setPc pc).withFetchWord 16 w.toNat

/-- The state after one step. -/
def after (s : State) : State :=
  match step s with
  | .next t => t
  | .fault _ | .refused _ => s

/-- V1. -/
theorem test_add_overflow :
    let t := after (((start 0x3000 0x1042).setReg 1 0x7FFF).setReg 2 0x0001)
    t.reg 0 = 0x8000 ∧ t.cond = condN ∧ t.pc = 0x3001 := by decide

/-- V3. -/
theorem test_add_destination_is_source :
    let t := after ((start 0x3000 0x1241).setReg 1 0x8000)
    t.reg 1 = 0x0000 ∧ t.cond = condZ := by decide

/-- S2. -/
theorem test_addImm_negative :
    let t := after ((start 0x3000 0x1534).setReg 4 0x0014)
    t.reg 2 = 0x0008 ∧ t.cond = condP := by decide

/-- V5. -/
theorem test_addImm_wraps :
    let t := after (start 0x3000 0x103F)
    t.reg 0 = 0xFFFF ∧ t.cond = condN := by decide

/-- V6. -/
theorem test_and :
    let t := after (((start 0x3000 0x5042).setReg 1 0xFF0F).setReg 2 0x0FF0)
    t.reg 0 = 0x0F00 ∧ t.cond = condP := by decide

/-- V8. -/
theorem test_andImm_sign_extends :
    let t := after ((start 0x3000 0x56F0).setReg 3 0xABCD)
    t.reg 3 = 0xABC0 ∧ t.cond = condN := by decide

/-- V10. -/
theorem test_not :
    let t := after ((start 0x3000 0x907F).setReg 1 0x00FF)
    t.reg 0 = 0xFF00 ∧ t.cond = condN := by decide

/-- S3. -/
theorem test_br_zero :
    (after (start 0x3000 0x0403)).pc = 0x3004 ∧ (after ((start 0x3000 0x0403).setCond condP)).pc = 0x3001 ∧
    (after ((start 0x3000 0x0403).setCond condN)).pc = 0x3001 := by decide

/-- V15, V16. -/
theorem test_br_wraps :
    (after ((start 0x0010 0x0900).setCond condN)).pc = 0xFF11 ∧
    (after ((start 0xFFFF 0x02FF).setCond condP)).pc = 0x00FF := by decide

/-- V17, V18. -/
theorem test_jmp :
    (after ((start 0x3000 0xC080).setReg 2 0x4000)).pc = 0x4000 ∧
    (after ((start 0x3000 0xC1C0).setReg 7 0x1234)).pc = 0x1234 := by decide

/-- S4. -/
theorem test_jsr :
    let t := after (start 0x2FFF 0x4805)
    t.reg 7 = 0x3000 ∧ t.pc = 0x3005 ∧ t.cond = condZ := by decide

/-- V20. -/
theorem test_jsr_backward :
    let t := after (start 0x3000 0x4C00)
    t.reg 7 = 0x3001 ∧ t.pc = 0x2C01 := by decide

/-- V21. -/
theorem test_jsrr :
    let t := after ((start 0x3010 0x40C0).setReg 3 0x5000)
    t.reg 7 = 0x3011 ∧ t.pc = 0x5000 := by decide

/-- V22. -/
theorem test_jsrr_base7 :
    let t := after ((start 0x3000 0x41C0).setReg 7 0x5000)
    t.reg 7 = 0x3001 ∧ t.pc = 0x3001 := by decide

/-- V23, V24. -/
theorem test_reserved :
    after (start 0x3000 0x8000) = (start 0x3000 0x8000).setPc 0x3001 ∧
    after (start 0x3000 0xDFFF) = (start 0x3000 0xDFFF).setPc 0x3001 := by decide

/-- V25. -/
theorem test_ld :
    let t := after ((start 0x3000 0x2202).setCell 0x3003 0xBEEF)
    t.reg 1 = 0xBEEF ∧ t.cond = condN := by decide

/-- V26. -/
theorem test_ld_itself :
    let t := after (start 0x3000 0x23FF)
    t.reg 1 = 0x23FF ∧ t.cond = condP := by decide

/-- V27. -/
theorem test_ldi :
    let t := after (((start 0x3000 0xA001).setCell 0x3002 0x4000).setCell 0x4000 0x0041)
    t.reg 0 = 0x0041 ∧ t.cond = condP := by decide

/-- The start of V38 to V40: LDI through a pointer to KBSR, KBDR holding 0x0011, and what the source will do. -/
def keyboard (es : List InputEvent) : State :=
  (((start 0x3000 0xA001).setCell 0x3002 0xFE00).setCell 0xFE02 0x0011).setInput es

/-- V38, V39, V40. -/
theorem test_ldi_polls :
    (let t := after (keyboard [.byte 0x61])
     t.reg 0 = 0x8000 ∧ t.cond = condN ∧ t.cell 0xFE00 = 0x8000 ∧ t.cell 0xFE02 = 0x0061 ∧ t.input = []) ∧
    (let t := after (keyboard [.quiet, .byte 0x61])
     t.reg 0 = 0x0000 ∧ t.cond = condZ ∧ t.cell 0xFE02 = 0x0011 ∧ t.input = [.byte 0x61]) ∧
    (let t := after (keyboard [.failure])
     t.fault = .inputError ∧ t.reg 0 = 0x0000 ∧ t.cond = condZ ∧ t.cell 0xFE02 = 0x0011 ∧ t.pc = 0x3001) := by
  decide

/-- V28. -/
theorem test_ldr :
    let t := after (((start 0x3000 0x62BE).setReg 2 0x4000).setCell 0x3FFE 0x0007)
    t.reg 1 = 0x0007 ∧ t.cond = condP ∧ t.reg 2 = 0x4000 := by decide

/-- V29. -/
theorem test_ldr_wraps :
    let t := after ((start 0x3000 0x64BF).setCell 0xFFFF 0x8001)
    t.reg 2 = 0x8001 ∧ t.cond = condN := by decide

/-- V31. -/
theorem test_lea_at_top :
    let t := after (start 0xFFFF 0xE1FF)
    t.reg 0 = 0xFFFF ∧ t.cond = condN ∧ t.pc = 0x0000 := by decide

/-- V32. -/
theorem test_lea_negative :
    let t := after (start 0x7F00 0xEAFF)
    t.reg 5 = 0x8000 ∧ t.cond = condN := by decide

/-- V33. -/
theorem test_st :
    let t := after ((start 0x3000 0x3604).setReg 3 0x1234)
    t.cell 0x3005 = 0x1234 ∧ t.cond = condZ := by decide

/-- V34. -/
theorem test_st_itself : (after ((start 0x3000 0x37FF).setReg 3 0x1234)).cell 0x3000 = 0x1234 := by decide

/-- V35. -/
theorem test_sti :
    let t := after (((start 0x3000 0xB001).setCell 0x3002 0x4000).setReg 0 0x0055)
    t.cell 0x4000 = 0x0055 ∧ t.cell 0x3002 = 0x4000 := by decide

/-- V36. -/
theorem test_str :
    (after (((start 0x3000 0x7283).setReg 2 0x4000).setReg 1 0xCAFE)).cell 0x4003 = 0xCAFE := by decide

/-- V37. -/
theorem test_str_wraps : (after ((start 0x3000 0x749F).setReg 2 0xFFF0)).cell 0x000F = 0xFFF0 := by decide

/-- V47, with a wait before the byte. -/
theorem test_getc :
    let t := after ((start 0x3000 0xF020).setInput [.quiet, .byte 0x61, .byte 0x62])
    t.reg 0 = 0x0061 ∧ t.cond = condP ∧ t.output = [] ∧ t.input = [.byte 0x62] := by decide

/-- V49. -/
theorem test_getc_failure :
    let t := after ((start 0x3000 0xF020).setInput [.failure])
    t.fault = .inputError ∧ t.reg 0 = 0x0000 ∧ t.cond = condZ ∧ t.pc = 0x3001 := by decide

/-- V50. -/
theorem test_out :
    let t := after ((start 0x3000 0xF021).setReg 0 0x1241)
    t.output = [0x41] ∧ t.reg 0 = 0x1241 := by decide

/-- V52. -/
theorem test_puts :
    let s := ((start 0x3000 0xF022).setReg 0 0x4000).setCell 0x4000 0x1248
    let t := after ((s.setCell 0x4001 0x0100).setCell 0x4002 0x0069)
    t.output = [0x48, 0x00, 0x69] ∧ t.reg 0 = 0x4000 := by decide

/-- V53. -/
theorem test_puts_empty : (after ((start 0x3000 0xF022).setReg 0 0x4000)).output = [] := by decide

/-- V54: 19 bytes of prompt, then the echo. -/
theorem test_in :
    let t := after ((start 0x3000 0xF023).setInput [.byte 0x7A])
    t.output.length = 20 ∧ t.output.getLast? = some 0x7A ∧ t.reg 0 = 0x007A ∧ t.cond = condP := by decide

/-- V55. -/
theorem test_in_failure :
    let t := after ((start 0x3000 0xF023).setInput [.failure])
    t.output.length = 19 ∧ t.fault = .inputError ∧ t.reg 0 = 0x0000 ∧ t.cond = condZ := by decide

/-- V56. -/
theorem test_putsp :
    let s := ((start 0x3000 0xF024).setReg 0 0x4000).setCell 0x4000 0x6548
    let t := after ((s.setCell 0x4001 0x006C).setCell 0x4002 0x6F6C)
    t.output = [0x48, 0x65, 0x6C] := by decide

/-- V58. -/
theorem test_putsp_zero_low_byte :
    let s := ((start 0x3000 0xF024).setReg 0 0x4000).setCell 0x4000 0x4100
    (after (s.setCell 0x4001 0x4242)).output = [] := by decide

/-- V60. -/
theorem test_halt :
    let t := after (start 0x3000 0xF025)
    t.running = false ∧ t.fault = .none ∧ t.pc = 0x3001 ∧ t.output = [] ∧ t.status = .halted := by decide

/-- V61. -/
theorem test_unrecognised :
    let t := after (start 0x3000 0xF026)
    t.fault = .unrecognizedTrapCode 0x26 ∧ t.running = true ∧ t.pc = 0x3001 ∧ t.regs = State.reset.regs := by decide

/-- The second step of V45 and V46: the fetch at KBSR_ADDR polls and executes what the poll left. -/
theorem test_fetch_at_kbsr :
    (let t := after ((start 0xFE00 0xF025).setInput [.byte 0x71])
     t.pc = 0xFE01 ∧ t.cell 0xFE00 = 0x8000 ∧ t.cell 0xFE02 = 0x0071 ∧ t.running = true) ∧
    (let t := after (start 0xFE00 0xF025)
     t.pc = 0xFE01 ∧ t.cell 0xFE00 = 0x0000 ∧ t.running = true) := by decide

/-- GETC with no byte to come (R182, the end of P5): blocked, neither halted nor faulted, and so after each step. -/
theorem test_getc_blocks :
    let t := after (start 0x3000 0xF020)
    t.status = .blocked ∧ t.pc = 0x3001 ∧ after t = t := by decide

/-- What a read answers, with what it leaves; none where the source failed. -/
def readValue : ReadResult → Option (Word × State)
  | .value v t => some (v, t)
  | .inputError _ => none

/-- The refusal of a host operation, if it was refused. -/
def refusalOf : Result → Option Refusal
  | .refused r => some r
  | .next _ | .fault _ => none

/-- The state a host operation leaves; the state itself where it was refused. -/
def answered (r : Result) (s : State) : State :=
  match r with
  | .next t => t
  | .fault _ | .refused _ => s

/-- S6. -/
theorem test_poll_none :
    (readValue (memRead 0xFE00 (State.reset.setCell 0xFE02 0x0011))).map
      (fun r => (r.1, r.2.cell 0xFE00, r.2.cell 0xFE02)) = some (0x0000, 0x0000, 0x0011) := by decide

/-! ### The host's operations -/

/-- S5 and V64: the two words of the image, the odd byte dropped. -/
theorem test_load :
    let t := answered (load [0x30, 0x00, 0x43, 0x14, 0x97, 0x5A, 0xFF] State.reset) State.reset
    t.mem = [(0x3000, 0x4314), (0x3001, 0x975A)] ∧ t.pc = 0x3000 := by decide

/-- V65 to V68. -/
theorem test_load_edges :
    refusalOf (load [0x30, 0x00] State.reset) = none ∧
    answered (load [0x30, 0x00] State.reset) State.reset = State.reset ∧
    refusalOf (load [0x30] State.reset) = some .imageTooShort ∧
    (answered (load [0xFF, 0xFF, 0x12, 0x34] State.reset) State.reset).cell 0xFFFF = 0x1234 ∧
    refusalOf (load [0xFF, 0xFF, 0x12, 0x34, 0x56, 0x78] State.reset) = some .imageTooLong := by decide

/-- The cause codes of R200 and the register sequence of R22. -/
theorem test_host_reads :
    causeCode .none = 0 ∧ causeCode .inputError = 1 ∧ causeCode (.unrecognizedTrapCode 0x26) = 2 ∧
    registerSequence State.reset = [0, 0, 0, 0, 0, 0, 0, 0, 0x3000, condZ] := by decide

/-- A reset is refused during a run (R39, R185). After it, the core is as after reset, and what the source will do is
not the core's (log 26). -/
theorem test_host_reset :
    refusalOf (hostReset (start 0x3000 0x0000)) = some .resetDuringRun ∧
    (let s := (after (start 0x4000 0xF025)).setInput [.byte 0x61]
     let t := answered (hostReset s) s
     t.hasRun = false ∧ t.pc = 0x3000 ∧ t.cell 0x4000 = 0x0000 ∧ t.input = [.byte 0x61]) := by decide

/-! ### Witnesses: for each statement with hypotheses, a state and operands that meet them all -/

/-- A core in a run, inside no service, with what its source will do. -/
def running (es : List InputEvent) : State := (start 0x3000 0x0000).setInput es

/-- The same with pc at KBSR_ADDR. -/
def atKbsr (es : List InputEvent) : State := (running es).setPc 0xFE00

/-- An instruction that reaches pc + 0 reads the cell at KBSR_ADDR. -/
theorem witness_readFails : ReadFails 0xFE00 (running [.failure]) ∧ (running [.failure]).cfg.kbsrAddr ≠
    (running [.failure]).cfg.kbdrAddr := by unfold ReadFails; decide

theorem witness_DecodeOfEncodeIsIdentity :
    OpcodeMapLegal opcodeMapDefault ∧ OpcodeMapLegal otherMap ∧ (Instr.ldr 7 3 0b100000).wellFormed = true ∧ (Instr.trapUnrecognised 0xFF).wellFormed = true := by
  unfold OpcodeMapLegal; decide

theorem witness_WordMatchesExactlyItsRow :
    OpcodeMapLegal opcodeMapDefault ∧ (∀ code, Instr.jsrr 3 ≠ .trapUnrecognised code) ∧
    (0x40C0 : Word) &&& rowMask (.jsrr 3) = rowMatch opcodeMapDefault (.jsrr 3) := by
  unfold OpcodeMapLegal; decide

/-- Both ends of the range of `w`. -/
theorem witness_SignExtensionKeepsSignedValue : (1 ≤ 1 ∧ 1 ≤ 16) ∧ (1 ≤ 16 ∧ 16 ≤ 16) ∧ 16 = 16 := by decide

/-- No run yet, and a run over. -/
theorem witness_ResetLeavesTheParameters :
    State.reset.active = false ∧ (after (start 0x3000 0xF025)).active = false := by decide

theorem witness_InvariantHoldsAfterReset : ConfigLegal defaultConfig := by
  unfold ConfigLegal CondLegal OpcodeMapLegal; decide

theorem witness_StepKeepsInvariant :
    MachineInv (running []) ∧ ∃ t, step (running []) = .next t := by
  refine ⟨?_, _, rfl⟩
  unfold MachineInv ConfigLegal CondLegal OpcodeMapLegal; decide

theorem witness_StepRunsTheDecodedInstruction :
    let s := running []
    s.running = true ∧ s.fault = .none ∧ s.service = none ∧ s.pc ≠ s.cfg.kbsrAddr := by decide

/-- Not yet run; halted; stopped by a fatal error. -/
theorem witness_StoppedCoreStaysAsItIs :
    State.reset.running = false ∧ (after (start 0x3000 0xF025)).running = false ∧
    (after (start 0x3000 0xF026)).fault ≠ .none := by decide

/-- A byte there, a quiet spell, a source with nothing left, a failing source. -/
theorem witness_FetchAtKeyboardStatusPolls :
    (∀ es ∈ [[.byte 0x71], [.quiet], [], [InputEvent.failure]],
      (atKbsr es).running = true ∧ (atKbsr es).fault = .none ∧ (atKbsr es).service = none ∧
      (atKbsr es).pc = (atKbsr es).cfg.kbsrAddr ∧ (atKbsr es).cfg.kbsrAddr ≠ (atKbsr es).cfg.kbdrAddr) ∧
    (opcodeOf (atKbsr []).cfg.opcodeMap 8 = .reserved8 ∧ opcodeOf (atKbsr []).cfg.opcodeMap 0 = .br) ∧
    (¬ ReadFails 0xFE00 (atKbsr [.byte 0x71]) ∧ ¬ ReadFails 0xFE00 (atKbsr [.quiet]) ∧
      ¬ ReadFails 0xFE00 (atKbsr []) ∧ ReadFails 0xFE00 (atKbsr [.failure])) := by
  unfold ReadFails; decide

theorem witness_PlacedWordRunsNext : State.reset.pc ≠ State.reset.cfg.kbsrAddr := by decide

/-- For the decoding clause of each statement about an instruction, a word that meets its hypotheses: ADD and AND
in their two forms, JSR, JSRR, then the opcodes of one form. -/
theorem witness_encodings :
    (opcodeOf opcodeMapDefault ((0x1042 : Word).extractLsb' 12 4) = .add ∧ (0x1042 : Word).getLsbD 5 = false) ∧
    (opcodeOf opcodeMapDefault ((0x1534 : Word).extractLsb' 12 4) = .add ∧ (0x1534 : Word).getLsbD 5 = true) ∧
    (opcodeOf opcodeMapDefault ((0x5042 : Word).extractLsb' 12 4) = .and ∧ (0x5042 : Word).getLsbD 5 = false) ∧
    (opcodeOf opcodeMapDefault ((0x56F0 : Word).extractLsb' 12 4) = .and ∧ (0x56F0 : Word).getLsbD 5 = true) ∧
    (opcodeOf opcodeMapDefault ((0x4805 : Word).extractLsb' 12 4) = .jsr ∧ (0x4805 : Word).getLsbD 11 = true) ∧
    (opcodeOf opcodeMapDefault ((0x40C0 : Word).extractLsb' 12 4) = .jsr ∧ (0x40C0 : Word).getLsbD 11 = false) ∧
    opcodeOf opcodeMapDefault ((0x0403 : Word).extractLsb' 12 4) = .br ∧ opcodeOf opcodeMapDefault ((0x907F : Word).extractLsb' 12 4) = .not ∧
    opcodeOf opcodeMapDefault ((0xC1C0 : Word).extractLsb' 12 4) = .jmp ∧ opcodeOf opcodeMapDefault ((0x2202 : Word).extractLsb' 12 4) = .ld ∧
    opcodeOf opcodeMapDefault ((0xA001 : Word).extractLsb' 12 4) = .ldi ∧ opcodeOf opcodeMapDefault ((0x62BE : Word).extractLsb' 12 4) = .ldr ∧
    opcodeOf opcodeMapDefault ((0xE1FF : Word).extractLsb' 12 4) = .lea ∧ opcodeOf opcodeMapDefault ((0x3604 : Word).extractLsb' 12 4) = .st ∧
    opcodeOf opcodeMapDefault ((0xB001 : Word).extractLsb' 12 4) = .sti ∧ opcodeOf opcodeMapDefault ((0x7283 : Word).extractLsb' 12 4) = .str := by
  decide

/-- The decoding clause of each TRAP: the six codes, and the two codes beside them. -/
theorem witness_trap_encodings :
    opcodeOf opcodeMapDefault ((0xF020 : Word).extractLsb' 12 4) = .trap ∧ opcodeOf opcodeMapDefault ((0xF021 : Word).extractLsb' 12 4) = .trap ∧
    opcodeOf opcodeMapDefault ((0xF022 : Word).extractLsb' 12 4) = .trap ∧ opcodeOf opcodeMapDefault ((0xF023 : Word).extractLsb' 12 4) = .trap ∧
    opcodeOf opcodeMapDefault ((0xF024 : Word).extractLsb' 12 4) = .trap ∧ opcodeOf opcodeMapDefault ((0xF025 : Word).extractLsb' 12 4) = .trap ∧
    opcodeOf opcodeMapDefault ((0xF01F : Word).extractLsb' 12 4) = .trap ∧ opcodeOf opcodeMapDefault ((0xF026 : Word).extractLsb' 12 4) = .trap ∧
    (0xF020 : Word).extractLsb' 0 8 = 0x20 ∧ (0xF021 : Word).extractLsb' 0 8 = 0x21 ∧
    (0xF022 : Word).extractLsb' 0 8 = 0x22 ∧ (0xF023 : Word).extractLsb' 0 8 = 0x23 ∧
    (0xF024 : Word).extractLsb' 0 8 = 0x24 ∧ (0xF025 : Word).extractLsb' 0 8 = 0x25 ∧
    ¬ (0x20 ≤ ((0xF01F : Word).extractLsb' 0 8).toNat ∧ ((0xF01F : Word).extractLsb' 0 8).toNat ≤ 0x25) ∧
    ¬ (0x20 ≤ ((0xF026 : Word).extractLsb' 0 8).toNat ∧ ((0xF026 : Word).extractLsb' 0 8).toNat ≤ 0x25) := by decide

/-- Taken, not taken, and a legal condition register. -/
theorem witness_BranchTakenWhenConditionMet :
    let s := running []
    BitVec.ofNat 16 (4 * false.toNat + 2 * true.toNat + false.toNat) &&& s.cond ≠ 0 ∧
    BitVec.ofNat 16 (4 * true.toNat + 2 * false.toNat + true.toNat) &&& s.cond = 0 ∧ CondLegal s.cond := by
  unfold CondLegal; decide

theorem witness_NotThenAddOneNegates : ((running []).setReg 5 0x8000).reg 5 = 0x8000 := by decide

/-- The base clauses of JSRR. -/
theorem witness_JsrrSavesPcThenReadsBase : (3 : RegNum) ≠ 7 ∧ (7 : RegNum) = 7 := by decide

/-- Both reserved opcodes. -/
theorem witness_ReservedOpcodesDoNothing :
    OpcodeMapLegal State.reset.cfg.opcodeMap ∧ (start 0x3000 0x8000).cfg = State.reset.cfg ∧
    (start 0x3000 0xDFFF).cfg = State.reset.cfg ∧
    (let s := start 0x3000 0x8000
     (s.cell s.pc).extractLsb' 12 4 = 8 ∧ s.running = true ∧ s.fault = .none ∧ s.service = none ∧
     s.pc ≠ s.cfg.kbsrAddr) ∧
    (let s := start 0x3000 0xDFFF
     (s.cell s.pc).extractLsb' 12 4 = 13 ∧ s.running = true ∧ s.fault = .none ∧ s.service = none ∧
     s.pc ≠ s.cfg.kbsrAddr) := by
  unfold OpcodeMapLegal; decide

/-- LD, LDI's and STI's first read: an ordinary cell; KBSR_ADDR with a byte, a quiet spell, nothing left; and a
failing source. -/
theorem witness_LoadPcRelative :
    (running []).cfg.kbsrAddr ≠ (running []).cfg.kbdrAddr ∧
    ¬ ReadFails ((running []).pc + sext (2 : BitVec 9)) (running []) ∧
    ¬ ReadFails ((atKbsr [.byte 0x61]).pc + sext (0 : BitVec 9)) (atKbsr [.byte 0x61]) ∧
    ¬ ReadFails ((atKbsr [.quiet]).pc + sext (0 : BitVec 9)) (atKbsr [.quiet]) ∧
    ¬ ReadFails ((atKbsr []).pc + sext (0 : BitVec 9)) (atKbsr []) ∧
    ReadFails ((atKbsr [.failure]).pc + sext (0 : BitVec 9)) (atKbsr [.failure]) := by
  unfold ReadFails; decide

/-- LDR, the base register one above KBSR_ADDR. -/
theorem witness_LoadBasePlusOffset :
    let s := (running [.byte 0x61]).setReg 2 0xFE01
    let f := (running [.failure]).setReg 2 0xFE01
    s.cfg.kbsrAddr ≠ s.cfg.kbdrAddr ∧ f.cfg.kbsrAddr ≠ f.cfg.kbdrAddr ∧
    ¬ ReadFails (s.reg 2 + sext (0x3F : BitVec 6)) s ∧ ¬ ReadFails (s.reg 2 + sext (0 : BitVec 6)) s ∧
    ReadFails (f.reg 2 + sext (0x3F : BitVec 6)) f := by
  unfold ReadFails; decide

/-- LDI, the second read: of an ordinary cell, and of KBSR_ADDR where the source fails (what the first read leaves
is the state itself); then neither read at KBSR_ADDR; then a failing first read. -/
theorem witness_LoadIndirect :
    let s := (running [.failure]).setCell 0x3001 0x4000
    let f := (running [.failure]).setCell 0x3001 0xFE00
    (s.cfg.kbsrAddr ≠ s.cfg.kbdrAddr ∧ f.cfg.kbsrAddr ≠ f.cfg.kbdrAddr) ∧
    (¬ ReadFails (s.pc + sext (1 : BitVec 9)) s ∧ ¬ ReadFails (s.cell (s.pc + sext (1 : BitVec 9))) s) ∧
    (¬ ReadFails (f.pc + sext (1 : BitVec 9)) f ∧ ReadFails (f.cell (f.pc + sext (1 : BitVec 9))) f) ∧
    (s.pc + sext (1 : BitVec 9) ≠ s.cfg.kbsrAddr ∧ s.cell (s.pc + sext (1 : BitVec 9)) ≠ s.cfg.kbsrAddr) ∧
    ReadFails ((atKbsr [.failure]).pc + sext (0 : BitVec 9)) (atKbsr [.failure]) := by
  unfold ReadFails; decide

/-- STI: an ordinary pointer, a pointer read at KBSR_ADDR, and a failing source. -/
theorem witness_StoreIndirect :
    (running []).cfg.kbsrAddr ≠ (running []).cfg.kbdrAddr ∧
    ¬ ReadFails ((running []).pc + sext (1 : BitVec 9)) (running []) ∧
    ¬ ReadFails ((atKbsr [.byte 1]).pc + sext (0 : BitVec 9)) (atKbsr [.byte 1]) ∧
    ReadFails ((atKbsr [.failure]).pc + sext (0 : BitVec 9)) (atKbsr [.failure]) := by
  unfold ReadFails; decide

/-- Reads beside KBSR_ADDR and at it. -/
theorem witness_MemReadPollsOnlyAtKeyboardStatus :
    (running []).cfg.kbsrAddr ≠ (running []).cfg.kbdrAddr ∧ ¬ ReadFails 0xFE01 (running [.failure]) ∧
    ¬ ReadFails 0xFE00 (running [.byte 0x61]) ∧ ReadFails 0xFE00 (running [.failure]) := by
  unfold ReadFails; decide

theorem witness_ReadAfterWriteRoundTrip :
    let s := running []
    s.cfg.kbsrAddr ≠ s.cfg.kbdrAddr ∧ (0xFE02 : Word) ≠ s.cfg.kbsrAddr ∧ (0xFE00 : Word) = s.cfg.kbsrAddr := by decide

theorem witness_StoreIsSeenByTheNextFetch :
    let s := running []
    s.running = true ∧ s.fault = .none ∧ s.service = none ∧ s.pc ≠ s.cfg.kbsrAddr := by decide

/-- A wait of no and of two quiet spells before the byte, and before the failure. GETC's and IN's statements. -/
theorem witness_GetcReadsOneByte :
    (running [.byte 0x61]).input = List.replicate 0 .quiet ++ .byte 0x61 :: [] ∧
    (running [.quiet, .quiet, .byte 0x61, .failure]).input = List.replicate 2 .quiet ++ .byte 0x61 :: [.failure] ∧
    (running [.failure]).input = List.replicate 0 .quiet ++ .failure :: [] ∧
    (running [.quiet, .quiet, .failure]).input = List.replicate 2 .quiet ++ .failure :: [] := by decide

theorem witness_InPromptsReadsAndEchoes :
    (running [.quiet, .byte 0x7A]).input = List.replicate 1 .quiet ++ .byte 0x7A :: [] ∧
    (running [.quiet, .failure]).input = List.replicate 1 .quiet ++ .failure :: [] := by decide

/-- A string of two cells across the top of memory, and the empty string. -/
theorem witness_PutsWritesLowBytes :
    (let s := (((running []).setReg 0 0xFFFF).setCell 0xFFFF 0x1248).setCell 0x0000 0x0100
     2 < 65536 ∧ (∀ k, k < 2 → s.cell (s.reg 0 + BitVec.ofNat 16 k) ≠ 0x0000) ∧
     s.cell (s.reg 0 + BitVec.ofNat 16 2) = 0x0000 ∧
     (∀ k, k ≤ 2 → s.reg 0 + BitVec.ofNat 16 k ≠ s.cfg.kbsrAddr)) ∧
    (let s := running []
     (∀ k, k < 0 → s.cell (s.reg 0 + BitVec.ofNat 16 k) ≠ 0x0000) ∧ s.cell (s.reg 0 + BitVec.ofNat 16 0) = 0x0000 ∧
     (∀ k, k ≤ 0 → s.reg 0 + BitVec.ofNat 16 k ≠ s.cfg.kbsrAddr)) := by decide

/-- A string of two cells before KBSR_ADDR, in a run with the events `es`. -/
def toKbsr (es : List InputEvent) : State :=
  (((running es).setReg 0 0xFDFE).setCell 0xFDFE 0x0141).setCell 0xFDFF 0x0142

/-- PUTS to KBSR_ADDR: a quiet spell, nothing left, and a byte. -/
theorem witness_PutsWritesLowBytes_keyboard :
    ∀ es ∈ [[InputEvent.quiet], [], [.byte 0x61]],
      2 < 65536 ∧ (toKbsr es).cfg.kbsrAddr ≠ (toKbsr es).cfg.kbdrAddr ∧
      (∀ k, k < 2 → (toKbsr es).cell ((toKbsr es).reg 0 + BitVec.ofNat 16 k) ≠ 0x0000 ∧
        (toKbsr es).reg 0 + BitVec.ofNat 16 k ≠ (toKbsr es).cfg.kbsrAddr) ∧
      (toKbsr es).reg 0 + BitVec.ofNat 16 2 = (toKbsr es).cfg.kbsrAddr := by decide

/-- What the poll leaves of `toKbsr`: the cell before KBDR is written, the byte is KBDR's, and the string ends behind. -/
theorem witness_PutsWritesLowBytes_goes_on :
    let m := ((((toKbsr []).setCell 0xFE01 0x0043).setCell 0xFE00 0x8000).setCell 0xFE02 (zext 0x61)).setInput []
    2 + 1 + 2 < 65536 ∧ (∀ k, k < 2 → m.cell (m.cfg.kbsrAddr + BitVec.ofNat 16 (k + 1)) ≠ 0x0000) ∧
    m.cell (m.cfg.kbsrAddr + BitVec.ofNat 16 (2 + 1)) = 0x0000 := by decide

/-- R155 and D14 by hand: the two cells, 0x00 for the polled word, the cell behind, then KBDR with the byte just put
there; and the string that stops at KBSR_ADDR. -/
theorem test_puts_over_keyboard :
    (let s := ((start 0x3000 0xF022).setReg 0 0xFDFF).setCell 0xFDFF 0x0142
     let t := after ((s.setCell 0xFE01 0x0043).setInput [.byte 0x61])
     t.output = [0x42, 0x00, 0x43, 0x61] ∧ t.input = [] ∧ t.fault = .none) ∧
    (after ((((start 0x3000 0xF022).setReg 0 0xFDFF).setCell 0xFDFF 0x0142).setInput [.quiet])).output = [0x42] := by
  decide

/-- The string ends at KBSR_ADDR, byte or none, and at a failing source. -/
theorem witness_PutspStopsAtKeyboardStatus :
    (∀ es ∈ [[.byte 0x61], [.quiet], [], [InputEvent.failure]],
      2 < 65536 ∧ (toKbsr es).cfg.kbsrAddr ≠ (toKbsr es).cfg.kbdrAddr ∧
      (∀ k, k < 2 → ((toKbsr es).cell ((toKbsr es).reg 0 + BitVec.ofNat 16 k)).extractLsb' 0 8 ≠ 0 ∧
        ((toKbsr es).cell ((toKbsr es).reg 0 + BitVec.ofNat 16 k)).extractLsb' 8 8 ≠ 0 ∧
        (toKbsr es).reg 0 + BitVec.ofNat 16 k ≠ (toKbsr es).cfg.kbsrAddr) ∧
      (toKbsr es).reg 0 + BitVec.ofNat 16 2 = (toKbsr es).cfg.kbsrAddr) ∧
    (¬ ReadFails 0xFE00 (toKbsr [.byte 0x61]) ∧ ¬ ReadFails 0xFE00 (toKbsr [.quiet]) ∧ ¬ ReadFails 0xFE00 (toKbsr []) ∧
      ReadFails 0xFE00 (toKbsr [.failure])) := by
  unfold ReadFails; decide

/-- R158: the two bytes of the cell before KBSR_ADDR. -/
theorem test_putsp_stops_at_keyboard :
    let t := after ((((start 0x3000 0xF024).setReg 0 0xFDFF).setCell 0xFDFF 0x4142).setInput [.byte 0x61])
    t.output = [0x42, 0x41] ∧ t.cell 0xFE02 = 0x0061 ∧ t.service = none := by decide

theorem witness_PutsKeepsOutputAtInputError :
    let s := (((running [.failure]).setReg 0 0xFDFE).setCell 0xFDFE 0x0041).setCell 0xFDFF 0x0042
    2 < 65536 ∧
    (∀ k, k < 2 → s.cell (s.reg 0 + BitVec.ofNat 16 k) ≠ 0x0000 ∧ s.reg 0 + BitVec.ofNat 16 k ≠ s.cfg.kbsrAddr) ∧
    s.reg 0 + BitVec.ofNat 16 2 = s.cfg.kbsrAddr ∧ s.input.head? = some .failure := by decide

/-- One full cell, then a cell with a zero high byte; and a string whose first cell has a zero low byte. -/
theorem witness_PutspWritesPackedBytes :
    (let s := (((running []).setReg 0 0x4000).setCell 0x4000 0x6548).setCell 0x4001 0x006C
     1 < 65536 ∧
     (∀ k, k < 1 → (s.cell (s.reg 0 + BitVec.ofNat 16 k)).extractLsb' 0 8 ≠ 0 ∧
       (s.cell (s.reg 0 + BitVec.ofNat 16 k)).extractLsb' 8 8 ≠ 0) ∧
     ((s.cell (s.reg 0 + BitVec.ofNat 16 1)).extractLsb' 8 8 = 0) ∧
     (∀ k, k ≤ 1 → s.reg 0 + BitVec.ofNat 16 k ≠ s.cfg.kbsrAddr)) ∧
    (let s := ((running []).setReg 0 0x4000).setCell 0x4000 0x4100
     (s.cell (s.reg 0 + BitVec.ofNat 16 0)).extractLsb' 0 8 = 0 ∧
     (∀ k, k ≤ 0 → s.reg 0 + BitVec.ofNat 16 k ≠ s.cfg.kbsrAddr)) := by decide

theorem witness_PutspEndsInOneInstruction : (running []).cfg.kbsrAddr ≠ (running []).cfg.kbdrAddr := by decide

theorem witness_BlockedReadStaysBlocked :
    let s := running [.quiet, .quiet]
    s.running = true ∧ s.fault = .none ∧ s.service = none ∧ (∀ e ∈ s.input, e = .quiet) := by decide

/-- The two services that wait. -/
theorem witness_BlockedReadCompletesOnAByte :
    let g := (running [.byte 0x61]).setService (some .getc)
    let i := (running [.byte 0x61]).setService (some .inChar)
    (g.running = true ∧ g.fault = .none ∧ g.input = .byte 0x61 :: [] ∧ g.service = some .getc) ∧
    (i.running = true ∧ i.fault = .none ∧ i.input = .byte 0x61 :: [] ∧ i.service = some .inChar) := by decide

theorem witness_TrapWritesNoRegisterButR0 :
    isTrap .trapOut = true ∧ Instr.trapOut ≠ .trapGetc ∧ Instr.trapOut ≠ .trapIn ∧
    ∃ t, exec .trapOut State.reset = .next t := ⟨by decide, by decide, by decide, _, rfl⟩

theorem witness_SetccIsTheOnlyFlagWriter : ∃ t, step (running []) = .next t := ⟨_, rfl⟩

/-- The three cases of the sign, at their boundaries. -/
theorem witness_SignFlag_cases :
    ((0x8000 : Word).msb = true) ∧ ((0x7FFF : Word) ≠ 0 ∧ (0x7FFF : Word).msb = false) ∧
    ((0x0001 : Word) ≠ 0 ∧ (0x0001 : Word).msb = false) := by decide

theorem witness_FlagsStayButForTheSetters :
    setsFlags (.jsr 5) = false ∧ ∃ t, exec (.jsr 5) State.reset = .next t := ⟨by decide, _, rfl⟩

theorem witness_PcChangesOnlyByControlTransfer :
    (∃ t, exec (.br false true false 3) State.reset = .next t) ∧ (∃ t, exec (.jmp 7) State.reset = .next t) ∧
    (∃ t, exec (.jsrr 7) State.reset = .next t) ∧ ∃ t, exec (.lea 1 3) State.reset = .next t :=
  ⟨⟨_, rfl⟩, ⟨_, rfl⟩, ⟨_, rfl⟩, _, rfl⟩

theorem witness_OnlyHaltClearsRunning :
    Instr.trapOut ≠ .trapHalt ∧ ∃ t, exec .trapOut State.reset = .next t := ⟨by decide, _, rfl⟩

/-- The two causes. -/
theorem witness_FaultIsWrittenOnlyByARaise :
    (∃ t, exec (.trapUnrecognised 0x26) State.reset = .next t ∧ t.fault ≠ State.reset.fault) ∧
    ∃ t, exec .trapGetc (running [.failure]) = .next t ∧ t.fault ≠ (running [.failure]).fault :=
  ⟨⟨_, rfl, by decide⟩, _, rfl, by decide⟩

theorem witness_OnlyStoresChangeOrdinaryCells :
    storesToMemory .trapOut = false ∧ (∃ t, exec .trapOut State.reset = .next t) ∧
    (0x3000 : Word) ≠ State.reset.cfg.kbsrAddr ∧ (0x3000 : Word) ≠ State.reset.cfg.kbdrAddr :=
  ⟨by decide, ⟨_, rfl⟩, by decide, by decide⟩

theorem witness_ConsoleIsTakenAndGivenInOrder : ∃ t, step (running [.byte 1]) = .next t := ⟨_, rfl⟩

theorem witness_InputIsUnseenWithoutARead : readsMemoryOrSource (.st 1 2) = false := by decide

/-- One word at the last address, and the two ends of the cells outside the image. -/
theorem witness_LoadStoresTheImage :
    let rest : List Byte := [0x12, 0x34, 0x56]
    State.reset.active = false ∧ rest.length / 2 ≤ 65536 - (256 * (0xFF : Byte).toNat + (0xFF : Byte).toNat) ∧
    0 < rest.length / 2 ∧ (0xFFFE : Word).toNat < 256 * (0xFF : Byte).toNat + (0xFF : Byte).toNat ∧
    256 * (0x30 : Byte).toNat + (0x00 : Byte).toNat + rest.length / 2 ≤ (0x3001 : Word).toNat := by decide

/-- No run, a run going on, and a run over. -/
theorem witness_HostOperationsRefuseByName :
    State.reset.active = false ∧
    65536 - (256 * (0xFF : Byte).toNat + (0xFF : Byte).toNat) < ([0x12, 0x34, 0x56, 0x78] : List Byte).length / 2 ∧
    (running []).active = true ∧ (after (start 0x3000 0xF025)).hasRun = true := by decide

theorem witness_RunEndsByHaltOrFatalError : MachineInv State.reset ∧ State.reset.hasRun = false := by
  refine ⟨?_, by decide⟩
  unfold MachineInv ConfigLegal CondLegal OpcodeMapLegal; decide

/-- Both ends of a run: still going on after no trip; over after the trip that was HALT, and after a fatal error. -/
theorem witness_RunEndsByHaltOrFatalError_ends :
    (answered (run 0 State.reset) State.reset).active = true ∧
    (answered (run 2 (State.reset.setCell 0x3000 0xF025)) State.reset).status = .halted ∧
    (answered (run 2 (State.reset.setCell 0x3000 0xF026)) State.reset).status =
      .faulted (.unrecognizedTrapCode 0x26) := by decide

end Sys2Proof.Tests
end

section
/-!
PROOFS. The condition register (spec 10_state section 3, R28).
-/

namespace Sys2Proof.Machine

/-- The three signs of a word: zero, negative, positive (R28). -/
theorem word_sign_cases (v : Word) :
    (v = 0x0000 ∧ v.msb = false) ∨ (v ≠ 0x0000 ∧ v.msb = true) ∨ (v ≠ 0x0000 ∧ v.msb = false) := by
  by_cases h0 : v = 0x0000
  · exact .inl ⟨h0, by rw [h0]; decide⟩
  · cases hm : v.msb with
    | true => exact .inr (.inl ⟨h0, rfl⟩)
    | false => exact .inr (.inr ⟨h0, rfl⟩)

/-- A step leaves the flags or sets them as `setcc` does: an instruction starts with the flags the step found, and
its frame says how it may leave them. -/
theorem step_cond {s t : State} (h : step s = .next t) : t.cond = s.cond ∨ ∃ v, t.cond = flagOf v := by
  obtain ⟨t', ht', hcases⟩ := step_frame s
  obtain rfl : t' = t := Host.Outcome.next.inj (ht'.symm.trans h)
  obtain rfl | ⟨-, i, u, hu, hexec⟩ := hcases
  · exact .inl rfl
  · exact hexec.cond.imp_left fun hc => hc.trans hu.cond

/-- Settles O48, from the sign cases of `flagOf` and the frame of a step. -/
theorem setccIsTheOnlyFlagWriter : Obligations.SetccIsTheOnlyFlagWriter := by
  unfold Obligations.SetccIsTheOnlyFlagWriter
  refine ⟨fun v s => ?_, word_sign_cases, fun s t h => ?_⟩
  · simpa using flagOf_signFlag v
  · simpa using step_cond h

end Sys2Proof.Machine
end

section
/-!
PROOFS. The unconditional store (spec 20_memory section 2, R57).
-/

namespace Sys2Proof.Machine

/-- The rule of a store for memory: the cell reads back the value, and no other cell changes. -/
theorem onlyCellWritten_setCell (a v : Word) (s : State) : OnlyCellWritten a v s (s.setCell a v) :=
  ⟨State.setCell_cell_self s a v, fun _ hx => State.setCell_cell_of_ne s v hx⟩

/-- The rule of a store for the run: no status, service, run mark or parameter changes. -/
theorem sameControl_setCell (a v : Word) (s : State) : SameControl s (s.setCell a v) :=
  ⟨State.setCell_running s a v, State.setCell_fault s a v, State.setCell_service s a v,
    State.setCell_hasRun s a v, State.setCell_cfg s a v⟩

/-- The rule of a store for the console: neither the source nor the sink changes. -/
theorem sameConsole_setCell (a v : Word) (s : State) : SameConsole s (s.setCell a v) :=
  ⟨State.setCell_input s a v, State.setCell_output s a v⟩

/-- Settles O32: `memWrite` is `setCell` at every address, so it has the memory rule and the frame of `setCell`. -/
theorem memWriteStoresUnconditionally : Obligations.MemWriteStoresUnconditionally := by
  unfold Obligations.MemWriteStoresUnconditionally
  intro a v s
  rw [memWrite_eq]
  exact ⟨onlyCellWritten_setCell a v s, State.setCell_reg s a v, State.setCell_cond s a v, State.setCell_pc s a v,
    sameConsole_setCell a v s, sameControl_setCell a v s⟩

end Sys2Proof.Machine
end

section
/-!
PROOFS. Sign extension (spec 00_scope R12, 40_operate R116): the formula of `sext` is `BitVec.signExtend`.
-/

namespace Sys2Proof

/-- For a field of at most 16 bits `sext`'s formula is the library's sign extension: both add `2 ^ 16 - 2 ^ n` when
the field's top bit is set. -/
theorem sext_eq_signExtend {n : Nat} (hn : n ≤ 16) (v : BitVec n) : sext v = v.signExtend 16 := by
  have hv : v.toNat < 2 ^ n := v.isLt
  have hpow : 2 ^ n ≤ 2 ^ 16 := Nat.pow_le_pow_right (by omega) hn
  apply BitVec.eq_of_toNat_eq
  rw [BitVec.toNat_signExtend, sext]
  cases v.msb with
  | false => rfl
  | true =>
    simp only [if_true, BitVec.toNat_add, BitVec.toNat_ofNat, BitVec.toNat_setWidth]
    omega

/-- R116: the signed value of a field of at most 16 bits is kept. -/
theorem sext_toInt {n : Nat} (hn : n ≤ 16) (v : BitVec n) : (sext v).toInt = v.toInt := by
  rw [sext_eq_signExtend hn, BitVec.toInt_signExtend_of_le hn]

/-- R116: a word is its own sign extension. -/
theorem sext_word (v : Word) : sext v = v := by
  rw [sext_eq_signExtend le_rfl, BitVec.signExtend_eq]

/-- Settles O4, from the signed value of `sext` and its value on a whole word. -/
theorem signExtensionKeepsSignedValue : Obligations.SignExtensionKeepsSignedValue := by
  unfold Obligations.SignExtensionKeepsSignedValue
  intro w n _ hw
  refine ⟨sext_toInt hw (n.setWidth w), ?_⟩
  rintro rfl
  rw [BitVec.setWidth_eq, sext_word]

end Sys2Proof
end

section
/-!
PROOFS. ADD and AND, immediate form (spec 40_operate R111, R113): the decoded operands, and what the handler leaves.
-/

namespace Sys2Proof.Machine

/-- R111: mode bit 5 set selects ADD's immediate form. -/
theorem decode_addImm {m : OpcodeMap} {ir : Word} (hop : opcodeOf m (opField ir) = .add)
    (hmode : ir.getLsbD 5 = true) : decode m ir = .addImm (dstField ir) (baseField ir) (imm5Field ir) := by
  simp only [decode, hop, hmode, if_true]

/-- R113: mode bit 5 set selects AND's immediate form. -/
theorem decode_andImm {m : OpcodeMap} {ir : Word} (hop : opcodeOf m (opField ir) = .and)
    (hmode : ir.getLsbD 5 = true) : decode m ir = .andImm (dstField ir) (baseField ir) (imm5Field ir) := by
  simp only [decode, hop, hmode, if_true]

theorem exec_addImm (dst src1 : RegNum) (imm5 : BitVec 5) (s : State) :
    exec (.addImm dst src1 imm5) s = .next (writeWithFlags dst (s.reg src1 + sext imm5) s) := rfl

theorem exec_andImm (dst src1 : RegNum) (imm5 : BitVec 5) (s : State) :
    exec (.andImm dst src1 imm5) s = .next (writeWithFlags dst (s.reg src1 &&& sext imm5) s) := rfl

/-- The memory frame of `x[d] <- v; setcc(v)`. -/
theorem sameCells_writeWithFlags (d : RegNum) (v : Word) (s : State) : SameCells s (writeWithFlags d v s) :=
  fun a => State.setReg_cell s d v a

/-- The console frame of `x[d] <- v; setcc(v)`. -/
theorem sameConsole_writeWithFlags (d : RegNum) (v : Word) (s : State) : SameConsole s (writeWithFlags d v s) :=
  ⟨State.setReg_input s d v, State.setReg_output s d v⟩

/-- An instruction whose handler ends in `x[d] <- v; setcc(v)` completes, writes the destination and the flags, and
leaves everything else. -/
theorem completes_writeWithFlags {i : Instr} {s : State} {d : RegNum} {v : Word}
    (h : exec i s = .next (writeWithFlags d v s)) :
    ∃ t, exec i s = .next t ∧ WritesDest d v s t ∧ SameCells s t ∧ SameConsole s t :=
  ⟨_, h, writeWithFlags_writesDest d v s, sameCells_writeWithFlags d v s, sameConsole_writeWithFlags d v s⟩

/-- Settles O14: the decoder's immediate arm, and the sum of words as the sum of their numbers modulo 65536. -/
theorem addImmediateForm : Obligations.AddImmediateForm := by
  unfold Obligations.AddImmediateForm
  refine ⟨fun m ir hop hmode => decode_addImm hop hmode, fun dst src1 imm5 s => ?_⟩
  rw [← BitVec.add_def]
  exact completes_writeWithFlags (exec_addImm dst src1 imm5 s)

/-- Settles O16: the decoder's immediate arm, and AND with the immediate sign-extended first. -/
theorem andImmediateForm : Obligations.AndImmediateForm := by
  unfold Obligations.AndImmediateForm
  exact ⟨fun m ir hop hmode => decode_andImm hop hmode,
    fun dst src1 imm5 s => completes_writeWithFlags (exec_andImm dst src1 imm5 s)⟩

end Sys2Proof.Machine
end

section
/-!
PROOFS. BR and JSR (spec 41_control R120, R121, R123): the decoded fields, the branch test, and the frame of a jump.
-/

namespace Sys2Proof.Machine

/-- R120: opcode BR alone selects BR, with its condition bits and its offset. -/
theorem decode_br {m : OpcodeMap} {ir : Word} (hop : opcodeOf m (opField ir) = .br) :
    decode m ir = .br (ir.getLsbD 11) (ir.getLsbD 10) (ir.getLsbD 9) (offset9Field ir) := by
  simp only [decode, hop]

/-- R123: mode bit 11 set selects JSR. -/
theorem decode_jsr {m : OpcodeMap} {ir : Word} (hop : opcodeOf m (opField ir) = .jsr)
    (hmode : ir.getLsbD 11 = true) : decode m ir = .jsr (offset11Field ir) := by
  simp only [decode, hop, hmode, if_true]

/-! ### The frame of a jump -/

theorem sameRegs_setPc (v : Word) (s : State) : SameRegs s (s.setPc v) := State.setPc_reg s v

theorem sameCells_setPc (v : Word) (s : State) : SameCells s (s.setPc v) := State.setPc_cell s v

theorem sameConsole_setPc (v : Word) (s : State) : SameConsole s (s.setPc v) :=
  ⟨State.setPc_input s v, State.setPc_output s v⟩

theorem sameControl_setPc (v : Word) (s : State) : SameControl s (s.setPc v) :=
  ⟨State.setPc_running s v, State.setPc_fault s v, State.setPc_service s v, State.setPc_hasRun s v,
    State.setPc_cfg s v⟩

/-! ### BR -/

/-- The three condition bits are the number 4n + 2z + p (R121). -/
theorem nzpWord_eq_ofNat (n z p : Bool) :
    nzpWord n z p = BitVec.ofNat 16 (4 * n.toNat + 2 * z.toNat + p.toNat) := by
  revert n z p; decide

theorem branchTaken_iff (n z p : Bool) (s : State) :
    branchTaken n z p s = true ↔ nzpWord n z p &&& s.cond ≠ 0 := bne_iff_ne

/-- Each flag value selects its own condition bit (R121). -/
theorem nzpWord_and_flags (n z p : Bool) :
    (nzpWord n z p &&& condN ≠ 0 ↔ n = true) ∧ (nzpWord n z p &&& condZ ≠ 0 ↔ z = true) ∧
      (nzpWord n z p &&& condP ≠ 0 ↔ p = true) := by
  revert n z p; decide

/-- Under a legal condition register the test asks whether the bit of the flag it holds is set (R120, R121). -/
theorem nzpWord_and_ne_zero_iff (n z p : Bool) {c : Word} (hc : CondLegal c) :
    nzpWord n z p &&& c ≠ 0 ↔ (n = true ∧ c = condN) ∨ (z = true ∧ c = condZ) ∨ (p = true ∧ c = condP) := by
  obtain ⟨hN, hZ, hP⟩ := nzpWord_and_flags n z p
  obtain rfl | rfl | rfl := hc
  · rw [hP]; simp [condP, condZ, condN]
  · rw [hZ]; simp [condP, condZ, condN]
  · rw [hN]; simp [condP, condZ, condN]

/-- BR sets pc in both cases: to the target, or to the value it has. -/
theorem exec_br (n z p : Bool) (offset9 : BitVec 9) (s : State) :
    exec (.br n z p offset9) s =
      .next (s.setPc (if branchTaken n z p s then pcRelative offset9 s else s.pc)) := by
  change execBr n z p offset9 s = _
  rw [execBr]
  cases branchTaken n z p s with
  | true => rfl
  | false => rfl

/-- Settles O19: BR is an update of pc alone, by the test `branchTaken`. -/
theorem branchTakenWhenConditionMet : Obligations.BranchTakenWhenConditionMet := by
  unfold Obligations.BranchTakenWhenConditionMet
  refine ⟨fun m ir hop => decode_br hop, fun n z p offset9 s => ?_⟩
  rw [← nzpWord_eq_ofNat]
  refine ⟨_, exec_br n z p offset9 s, fun hmet => ?_, fun hnot => ?_, nzpWord_and_ne_zero_iff n z p,
    sameRegs_setPc _ s, State.setPc_cond s _, sameCells_setPc _ s, sameConsole_setPc _ s, sameControl_setPc _ s⟩
  · exact if_pos ((branchTaken_iff n z p s).mpr hmet)
  · exact if_neg fun htaken => (branchTaken_iff n z p s).mp htaken hnot

/-! ### JSR -/

theorem exec_jsr (offset11 : BitVec 11) (s : State) :
    exec (.jsr offset11) s = .next ((s.setReg 7 s.pc).setPc (pcRelative offset11 s)) := rfl

/-- The register rule of a jump that links: the link register alone changes (R123, R124). -/
theorem onlyRegWritten_setReg_setPc (d : RegNum) (v w : Word) (s : State) :
    OnlyRegWritten d v s ((s.setReg d v).setPc w) :=
  ⟨State.setReg_reg_self s d v, fun _ hr => State.setReg_reg_of_ne s v hr⟩

/-- Settles O21: JSR writes R7 and then pc, both from the pc it finds; the frame is that of the jump from the state
with R7 written, which differs from `s` in no cell, console or control field. -/
theorem jsrSavesPcAndJumps : Obligations.JsrSavesPcAndJumps := by
  unfold Obligations.JsrSavesPcAndJumps
  exact ⟨fun m ir hop hmode => decode_jsr hop hmode, fun offset11 s =>
    ⟨_, exec_jsr offset11 s, onlyRegWritten_setReg_setPc 7 s.pc _ s, State.setPc_pc _ _,
      State.setReg_cond s 7 s.pc, sameCells_setPc _ (s.setReg 7 s.pc), sameConsole_setPc _ (s.setReg 7 s.pc),
      sameControl_setPc _ (s.setReg 7 s.pc)⟩⟩

end Sys2Proof.Machine
end

section
/-!
PROOFS. LEA, ST and STR (spec 42_load_store R138, R139, R141): the decoded operands, and what the handler leaves. None
of the three reads memory, so each completes in every state.
-/

namespace Sys2Proof.Machine

/-- R138: opcode LEA alone selects LEA. -/
theorem decode_lea {m : OpcodeMap} {ir : Word} (hop : opcodeOf m (opField ir) = .lea) :
    decode m ir = .lea (dstField ir) (offset9Field ir) := by
  simp only [decode, hop]

/-- R139: opcode ST alone selects ST. -/
theorem decode_st {m : OpcodeMap} {ir : Word} (hop : opcodeOf m (opField ir) = .st) :
    decode m ir = .st (dstField ir) (offset9Field ir) := by
  simp only [decode, hop]

/-- R141: opcode STR alone selects STR. -/
theorem decode_str {m : OpcodeMap} {ir : Word} (hop : opcodeOf m (opField ir) = .str) :
    decode m ir = .str (dstField ir) (baseField ir) (offset6Field ir) := by
  simp only [decode, hop]

theorem exec_lea (dst : RegNum) (offset9 : BitVec 9) (s : State) :
    exec (.lea dst offset9) s = .next (writeWithFlags dst (pcRelative offset9 s) s) := rfl

theorem exec_st (src : RegNum) (offset9 : BitVec 9) (s : State) :
    exec (.st src offset9) s = .next (memWrite (pcRelative offset9 s) (s.reg src) s) := rfl

theorem exec_str (src base : RegNum) (offset6 : BitVec 6) (s : State) :
    exec (.str src base offset6) s = .next (memWrite (baseOffset base offset6 s) (s.reg src) s) := rfl

/-- An instruction whose handler is one `MemWrite` completes, writes that cell, and leaves everything else. -/
theorem completes_memWrite {i : Instr} {s : State} {a v : Word} (h : exec i s = .next (memWrite a v s)) :
    ∃ t, exec i s = .next t ∧ OnlyCellWritten a v s t ∧
      SameRegs s t ∧ t.cond = s.cond ∧ t.pc = s.pc ∧ SameConsole s t ∧ SameControl s t :=
  ⟨_, h, memWriteStoresUnconditionally a v s⟩

/-- Settles O28: LEA's handler is `x[dst] <- pc + offset9; setcc` with no read before it. -/
theorem leaComputesTheAddress : Obligations.LeaComputesTheAddress := by
  unfold Obligations.LeaComputesTheAddress
  exact ⟨fun m ir hop => decode_lea hop, fun dst offset9 s => completes_writeWithFlags (exec_lea dst offset9 s)⟩

/-- Settles O29: ST's handler is one `MemWrite` at pc + offset9. -/
theorem storePcRelative : Obligations.StorePcRelative := by
  unfold Obligations.StorePcRelative
  exact ⟨fun m ir hop => decode_st hop, fun src offset9 s => completes_memWrite (exec_st src offset9 s)⟩

/-- Settles O30: STR's handler is one `MemWrite` at base + offset6, the source read before the store. -/
theorem storeBasePlusOffset : Obligations.StoreBasePlusOffset := by
  unfold Obligations.StoreBasePlusOffset
  exact ⟨fun m ir hop => decode_str hop,
    fun src base offset6 s => completes_memWrite (exec_str src base offset6 s)⟩

end Sys2Proof.Machine
end

section
/-!
PROOFS. The decoder (spec 30_encoding sections 2 to 7): what it selects, opcode by opcode; that it undoes the encoder;
and the one row of the opcode table a word matches.
-/

namespace Sys2Proof.Machine

/-! ### What each opcode selects (R81, R86, R88) -/

/-- R110: mode bit 5 clear selects ADD's register form. -/
theorem decode_addReg {m : OpcodeMap} {ir : Word} (hop : opcodeOf m (opField ir) = .add)
    (hmode : ir.getLsbD 5 = false) : decode m ir = .addReg (dstField ir) (baseField ir) (src2Field ir) := by
  simp only [decode, hop, hmode, Bool.false_eq_true, if_false]

/-- R112: mode bit 5 clear selects AND's register form. -/
theorem decode_andReg {m : OpcodeMap} {ir : Word} (hop : opcodeOf m (opField ir) = .and)
    (hmode : ir.getLsbD 5 = false) : decode m ir = .andReg (dstField ir) (baseField ir) (src2Field ir) := by
  simp only [decode, hop, hmode, Bool.false_eq_true, if_false]

/-- R124: mode bit 11 clear selects JSRR. -/
theorem decode_jsrr {m : OpcodeMap} {ir : Word} (hop : opcodeOf m (opField ir) = .jsr)
    (hmode : ir.getLsbD 11 = false) : decode m ir = .jsrr (baseField ir) := by
  simp only [decode, hop, hmode, Bool.false_eq_true, if_false]

theorem decode_ld {m : OpcodeMap} {ir : Word} (hop : opcodeOf m (opField ir) = .ld) :
    decode m ir = .ld (dstField ir) (offset9Field ir) := by
  simp only [decode, hop]

theorem decode_ldr {m : OpcodeMap} {ir : Word} (hop : opcodeOf m (opField ir) = .ldr) :
    decode m ir = .ldr (dstField ir) (baseField ir) (offset6Field ir) := by
  simp only [decode, hop]

theorem decode_ldi {m : OpcodeMap} {ir : Word} (hop : opcodeOf m (opField ir) = .ldi) :
    decode m ir = .ldi (dstField ir) (offset9Field ir) := by
  simp only [decode, hop]

theorem decode_sti {m : OpcodeMap} {ir : Word} (hop : opcodeOf m (opField ir) = .sti) :
    decode m ir = .sti (dstField ir) (offset9Field ir) := by
  simp only [decode, hop]

theorem decode_not {m : OpcodeMap} {ir : Word} (hop : opcodeOf m (opField ir) = .not) :
    decode m ir = .not (dstField ir) (baseField ir) := by
  simp only [decode, hop]

theorem decode_jmp {m : OpcodeMap} {ir : Word} (hop : opcodeOf m (opField ir) = .jmp) :
    decode m ir = .jmp (baseField ir) := by
  simp only [decode, hop]

theorem decode_res8 {m : OpcodeMap} {ir : Word} (hop : opcodeOf m (opField ir) = .reserved8) :
    decode m ir = .res8 (ignoredField ir) := by
  simp only [decode, hop]

theorem decode_res13 {m : OpcodeMap} {ir : Word} (hop : opcodeOf m (opField ir) = .reserved13) :
    decode m ir = .res13 (ignoredField ir) := by
  simp only [decode, hop]

/-- R87: opcode TRAP leaves the choice to the trap code. -/
theorem decode_trap {m : OpcodeMap} {ir : Word} (hop : opcodeOf m (opField ir) = .trap) :
    decode m ir = decodeTrap (trapField ir) := by
  simp only [decode, hop]

/-! ### The decoder undoes the encoder -/

/-- A legal OPCODE_MAP reads the opcode of an encoded instruction back. -/
theorem opcodeOf_opField_encode {m : OpcodeMap} (hm : OpcodeMapLegal m) (i : Instr) :
    opcodeOf m (opField (encode m i)) = instrOpcode i := by
  rw [encode, opField_layoutWord, hm.opcodeOf_opcodeNumber]

/-- The trap code of an encoded TRAP is read back, so that decoding it is decoding the code. -/
theorem decode_encode_trap {m : OpcodeMap} (hm : OpcodeMapLegal m) {i : Instr} {code : Byte}
    (hop : instrOpcode i = .trap) (hlow : encodeLow i = layoutTrap code) :
    decode m (encode m i) = decodeTrap code := by
  rw [decode_trap ((opcodeOf_opField_encode hm i).trans hop), encode, hlow, trapField_layoutTrap]

/-- R82 to R88, format by format: the opcode and the secondary selectors choose the instruction's own arm of the
decoder, whose fields read the operands back. -/
theorem decode_encode {m : OpcodeMap} (hm : OpcodeMapLegal m) (i : Instr) (hi : i.wellFormed = true) :
    decode m (encode m i) = i := by
  have hop := opcodeOf_opField_encode hm i
  cases i with
  | br n z p o => rw [decode_br hop]; simp [encode, encodeLow]
  | addReg d a b => rw [decode_addReg hop (by simp [encode, encodeLow])]; simp [encode, encodeLow]
  | addImm d a k => rw [decode_addImm hop (by simp [encode, encodeLow])]; simp [encode, encodeLow]
  | andReg d a b => rw [decode_andReg hop (by simp [encode, encodeLow])]; simp [encode, encodeLow]
  | andImm d a k => rw [decode_andImm hop (by simp [encode, encodeLow])]; simp [encode, encodeLow]
  | jsr o => rw [decode_jsr hop (by simp [encode, encodeLow])]; simp [encode, encodeLow]
  | jsrr b => rw [decode_jsrr hop (by simp [encode, encodeLow])]; simp [encode, encodeLow]
  | ld d o => rw [decode_ld hop]; simp [encode, encodeLow]
  | ldi d o => rw [decode_ldi hop]; simp [encode, encodeLow]
  | ldr d b o => rw [decode_ldr hop]; simp [encode, encodeLow]
  | lea d o => rw [decode_lea hop]; simp [encode, encodeLow]
  | st r o => rw [decode_st hop]; simp [encode, encodeLow]
  | sti r o => rw [decode_sti hop]; simp [encode, encodeLow]
  | str r b o => rw [decode_str hop]; simp [encode, encodeLow]
  | not d r => rw [decode_not hop]; simp [encode, encodeLow]
  | jmp b => rw [decode_jmp hop]; simp [encode, encodeLow]
  | res8 x => rw [decode_res8 hop]; simp [encode, encodeLow]
  | res13 x => rw [decode_res13 hop]; simp [encode, encodeLow]
  | trapGetc | trapOut | trapPuts | trapIn | trapPutsp | trapHalt => rw [decode_encode_trap hm rfl rfl]; rfl
  | trapUnrecognised code =>
    rw [decode_encode_trap hm rfl rfl]
    exact decodeTrap_of_not_service (by simpa [Instr.wellFormed] using hi)

/-- Settles O2, from `decode_encode`. -/
theorem decodeOfEncodeIsIdentity : Obligations.DecodeOfEncodeIsIdentity := by
  unfold Obligations.DecodeOfEncodeIsIdentity
  exact fun m i hm hi => decode_encode hm i hi

/-! ### The row of the opcode table a word matches -/

theorem instrOpcode_decodeTrap (code : Byte) : instrOpcode (decodeTrap code) = .trap := by
  unfold decodeTrap
  split <;> rfl

/-- The decoder chooses an instruction of the word's own opcode (R81). -/
theorem instrOpcode_decode (m : OpcodeMap) (w : Word) : instrOpcode (decode m w) = opcodeOf m (opField w) := by
  cases hop : opcodeOf m (opField w) with
  | add =>
    cases hmode : w.getLsbD 5 with
    | true => rw [decode_addImm hop hmode]; rfl
    | false => rw [decode_addReg hop hmode]; rfl
  | and =>
    cases hmode : w.getLsbD 5 with
    | true => rw [decode_andImm hop hmode]; rfl
    | false => rw [decode_andReg hop hmode]; rfl
  | jsr =>
    cases hmode : w.getLsbD 11 with
    | true => rw [decode_jsr hop hmode]; rfl
    | false => rw [decode_jsrr hop hmode]; rfl
  | trap => rw [decode_trap hop, instrOpcode_decodeTrap]
  | _ => simp only [decode, hop, instrOpcode]

/-- R87: the fallback row holds no service's code. -/
theorem decodeTrap_wellFormed (code : Byte) : (decodeTrap code).wellFormed = true := by
  cases hc : isServiceCode code with
  | true => revert hc; revert code; decide
  | false => rw [decodeTrap_of_not_service hc]; simp [Instr.wellFormed, hc]

theorem wellFormed_of_not_trap {i : Instr} (h : instrOpcode i ≠ .trap) : i.wellFormed = true := by
  cases i with
  | trapUnrecognised code => exact absurd rfl h
  | _ => rfl

theorem decode_wellFormed (m : OpcodeMap) (w : Word) : (decode m w).wellFormed = true := by
  by_cases hop : opcodeOf m (opField w) = .trap
  · rw [decode_trap hop]
    exact decodeTrap_wellFormed _
  · exact wellFormed_of_not_trap (by rwa [instrOpcode_decode])

/-- The bits below the opcode that an instruction's row tests: the mode bit, or the trap code (R88). -/
def rowMaskLow : Instr → BitVec 12
  | .addReg _ _ _ | .addImm _ _ _ | .andReg _ _ _ | .andImm _ _ _ => 0x020
  | .jsr _ | .jsrr _ => 0x800
  | .trapGetc | .trapOut | .trapPuts | .trapIn | .trapPutsp | .trapHalt => 0x0FF
  | _ => 0

/-- Every row tests the whole opcode, and `rowMaskLow` below it. -/
theorem rowMask_eq (i : Instr) : rowMask i = layoutWord 0xF (rowMaskLow i) := by
  have hopcode : 0xF000 = layoutWord 0xF 0 := by decide
  have hmode5 : 0xF020 = layoutWord 0xF 0x020 := by decide
  have hmode11 : 0xF800 = layoutWord 0xF 0x800 := by decide
  have hcode : 0xF0FF = layoutWord 0xF 0x0FF := by decide
  cases i with
  | addReg | addImm | andReg | andImm => exact hmode5
  | jsr | jsrr => exact hmode11
  | trapGetc | trapOut | trapPuts | trapIn | trapPutsp | trapHalt => exact hcode
  | _ => exact hopcode

/-- A word matches a row when its opcode is the row's and its low bits, under the row's mask, are the row's. -/
theorem row_match_iff {m : OpcodeMap} (hm : OpcodeMapLegal m) (w : Word) (i : Instr) :
    w &&& rowMask i = rowMatch m i ↔
      opcodeOf m (opField w) = instrOpcode i ∧ ignoredField w &&& rowMaskLow i = rowLow i := by
  have hF : ∀ x : BitVec 4, x &&& 0xF = x := by decide
  have hw : w &&& rowMask i = layoutWord (opField w) (ignoredField w &&& rowMaskLow i) := by
    rw [rowMask_eq]
    conv_lhs => rw [← layoutWord_fields w]
    rw [Laws.RowOfEncoding.and_layoutWord, hF]
  rw [hw, rowMatch]
  constructor
  · intro h
    obtain ⟨hop, hlow⟩ := layoutWord_inj h
    exact ⟨by rw [hop, hm.opcodeOf_opcodeNumber], hlow⟩
  · rintro ⟨hop, hlow⟩
    rw [← hop, hm.opcodeNumber_opcodeOf, hlow]

/-- A one-bit test of the low twelve bits. -/
theorem ignoredField_and_twoPow (w : Word) {i : Nat} (h : i < 12) :
    ignoredField w &&& BitVec.twoPow 12 i = if w.getLsbD i then BitVec.twoPow 12 i else 0 := by
  have hbit : (ignoredField w).getLsbD i = w.getLsbD i := by simp [ignoredField, h]
  rw [BitVec.and_twoPow, hbit]
  rfl

/-- The mode bit of ADD and AND, as their rows test it (R88). -/
theorem ignoredField_and_mode5 (w : Word) : ignoredField w &&& 0x020 = if w.getLsbD 5 then 0x020 else 0 :=
  ignoredField_and_twoPow w (i := 5) (by omega)

/-- The mode bit of JSR and JSRR, as their rows test it (R88). -/
theorem ignoredField_and_mode11 (w : Word) : ignoredField w &&& 0x800 = if w.getLsbD 11 then 0x800 else 0 :=
  ignoredField_and_twoPow w (i := 11) (by omega)

/-- The trap code, as the rows of the services test it (R87). -/
theorem ignoredField_and_code (w : Word) : ignoredField w &&& 0x0FF = (trapField w).setWidth 12 := by
  have hmask : ∀ j (hj : j < 12), (0x0FF#12)[j] = decide (j < 8) := by decide
  ext j hj
  by_cases h8 : j < 8 <;> simp [ignoredField, trapField, hmask j hj, h8]

/-- A word whose low bits match a service's row has the service's code. -/
theorem trapField_of_match {w : Word} {code : Byte} (h : ignoredField w &&& 0x0FF = code.setWidth 12) :
    trapField w = code := by
  rw [ignoredField_and_code] at h
  simpa using congrArg (BitVec.setWidth 8) h

/-- The row of a trap code: a service's row tests the whole code, the fallback row nothing below the opcode (R87). -/
theorem decodeTrap_row (code : Byte) :
    (rowMaskLow (decodeTrap code) = 0x0FF ∧ rowLow (decodeTrap code) = code.setWidth 12) ∨
      (rowMaskLow (decodeTrap code) = 0 ∧ rowLow (decodeTrap code) = 0) := by
  cases hc : isServiceCode code with
  | true => revert hc; revert code; decide
  | false => exact .inr (by rw [decodeTrap_of_not_service hc]; exact ⟨rfl, rfl⟩)

/-- The word matches, below the opcode, the row of what it decodes to. -/
theorem ignoredField_and_rowMaskLow_decode (m : OpcodeMap) (w : Word) :
    ignoredField w &&& rowMaskLow (decode m w) = rowLow (decode m w) := by
  have h5 := ignoredField_and_mode5 w
  have h11 := ignoredField_and_mode11 w
  cases hop : opcodeOf m (opField w) with
  | add =>
    cases hmode : w.getLsbD 5 with
    | true => rw [decode_addImm hop hmode]; rwa [hmode] at h5
    | false => rw [decode_addReg hop hmode]; rwa [hmode] at h5
  | and =>
    cases hmode : w.getLsbD 5 with
    | true => rw [decode_andImm hop hmode]; rwa [hmode] at h5
    | false => rw [decode_andReg hop hmode]; rwa [hmode] at h5
  | jsr =>
    cases hmode : w.getLsbD 11 with
    | true => rw [decode_jsr hop hmode]; rwa [hmode] at h11
    | false => rw [decode_jsrr hop hmode]; rwa [hmode] at h11
  | trap =>
    rw [decode_trap hop]
    obtain ⟨hmask, hlow⟩ | ⟨hmask, hlow⟩ := decodeTrap_row (trapField w)
    · rw [hmask, hlow, ignoredField_and_code]
    · rw [hmask, hlow]; exact BitVec.and_zero
  | _ =>
    simp only [decode, hop]
    exact BitVec.and_zero

/-- Two instructions stand in the same row of the opcode table. -/
def SameRow (m : OpcodeMap) (i j : Instr) : Prop := rowMask i = rowMask j ∧ rowMatch m i = rowMatch m j

/-- The mode bit of a word that matches a row of ADD or AND. -/
theorem getLsbD_of_mode5 {w : Word} {b : Bool} (h : ignoredField w &&& 0x020 = if b then 0x020 else 0) :
    w.getLsbD 5 = b := by
  rw [ignoredField_and_mode5] at h
  revert h
  cases w.getLsbD 5 <;> cases b <;> decide

/-- The mode bit of a word that matches a row of opcode JSR. -/
theorem getLsbD_of_mode11 {w : Word} {b : Bool} (h : ignoredField w &&& 0x800 = if b then 0x800 else 0) :
    w.getLsbD 11 = b := by
  rw [ignoredField_and_mode11] at h
  revert h
  cases w.getLsbD 11 <;> cases b <;> decide

/-- A word that matches a service's row decodes to that service. -/
theorem decode_of_service_match {m : OpcodeMap} {w : Word} {code : Byte} (hop : opcodeOf m (opField w) = .trap)
    (hlow : ignoredField w &&& 0x0FF = code.setWidth 12) : decode m w = decodeTrap code := by
  rw [decode_trap hop, trapField_of_match hlow]

/-- The decoder reads exactly what the rows test: a word that matches a row, TRAP's fallback apart, decodes into that
row (R88, R95). -/
theorem sameRow_decode_of_match {m : OpcodeMap} {w : Word} (i : Instr) (hi : ∀ code, i ≠ .trapUnrecognised code)
    (hop : opcodeOf m (opField w) = instrOpcode i) (hlow : ignoredField w &&& rowMaskLow i = rowLow i) :
    SameRow m (decode m w) i := by
  cases i with
  | addReg d a b => rw [decode_addReg hop (getLsbD_of_mode5 hlow)]; exact ⟨rfl, rfl⟩
  | addImm d a k => rw [decode_addImm hop (getLsbD_of_mode5 hlow)]; exact ⟨rfl, rfl⟩
  | andReg d a b => rw [decode_andReg hop (getLsbD_of_mode5 hlow)]; exact ⟨rfl, rfl⟩
  | andImm d a k => rw [decode_andImm hop (getLsbD_of_mode5 hlow)]; exact ⟨rfl, rfl⟩
  | jsr o => rw [decode_jsr hop (getLsbD_of_mode11 hlow)]; exact ⟨rfl, rfl⟩
  | jsrr b => rw [decode_jsrr hop (getLsbD_of_mode11 hlow)]; exact ⟨rfl, rfl⟩
  | trapGetc => rw [decode_of_service_match (code := 0x20) hop hlow]; exact ⟨rfl, rfl⟩
  | trapOut => rw [decode_of_service_match (code := 0x21) hop hlow]; exact ⟨rfl, rfl⟩
  | trapPuts => rw [decode_of_service_match (code := 0x22) hop hlow]; exact ⟨rfl, rfl⟩
  | trapIn => rw [decode_of_service_match (code := 0x23) hop hlow]; exact ⟨rfl, rfl⟩
  | trapPutsp => rw [decode_of_service_match (code := 0x24) hop hlow]; exact ⟨rfl, rfl⟩
  | trapHalt => rw [decode_of_service_match (code := 0x25) hop hlow]; exact ⟨rfl, rfl⟩
  | trapUnrecognised code => exact absurd rfl (hi code)
  | _ =>
    simp only [instrOpcode] at hop
    simp only [decode, hop]
    exact ⟨rfl, rfl⟩

/-- Settles O3: a row's test is the opcode and the selectors the decoder reads (`row_match_iff`). -/
theorem wordMatchesExactlyItsRow : Obligations.WordMatchesExactlyItsRow := by
  unfold Obligations.WordMatchesExactlyItsRow
  intro m w hm
  refine ⟨decode_wellFormed m w, ?_, fun i hi hmatch => ?_⟩
  · exact (row_match_iff hm w _).mpr ⟨(instrOpcode_decode m w).symm, ignoredField_and_rowMaskLow_decode m w⟩
  · obtain ⟨hop, hlow⟩ := (row_match_iff hm w i).mp hmatch
    exact sameRow_decode_of_match i hi hop hlow

/-- Settles O1: each word is evaluated under the default OPCODE_MAP. -/
theorem writtenOutWordsDecode : Obligations.WrittenOutWordsDecode := by
  unfold Obligations.WrittenOutWordsDecode
  decide

end Sys2Proof.Machine
end

section
/-!
PROOFS. The step (spec 45_run_loop_and_host R170, R174; 60_exceptions R200): it always answers a next state, keeps the
machine's invariant, and takes and gives the console's characters in order. All from the frame of a step.
-/

namespace Sys2Proof.Machine

/-- An answered step is inside the frame. -/
theorem step_next {s t : State} (h : step s = .next t) :
    t = s ∨ (s.active = true ∧ ∃ i u, Dispatched s u ∧ ExecFrame i u t) := by
  obtain ⟨t', ht', hcases⟩ := step_frame s
  obtain rfl : t' = t := Host.Outcome.next.inj (ht'.symm.trans h)
  exact hcases

/-- An answered instruction is inside the frame. -/
theorem exec_next {i : Instr} {s t : State} (h : exec i s = .next t) : ExecFrame i s t := by
  obtain ⟨t', ht', hframe⟩ := exec_frame i s
  obtain rfl : t' = t := Host.Outcome.next.inj (ht'.symm.trans h)
  exact hframe

/-- Settles O8, from the frames of an instruction and of a step. -/
theorem everyStepAnswersNextState : Obligations.EveryStepAnswersNextState := by
  unfold Obligations.EveryStepAnswersNextState
  refine ⟨fun i s => ?_, fun s => ?_⟩
  · obtain ⟨t, ht, -⟩ := exec_frame i s
    exact ⟨t, ht⟩
  · obtain ⟨t, ht, -⟩ := step_frame s
    exact ⟨t, ht⟩

/-! ### The invariant -/

/-- A service is recorded at the end of an instruction begun outside of one only in a run without a fault. -/
theorem ExecFrame.active_of_service {i : Instr} {s t : State} (h : ExecFrame i s t) (ha : s.active = true)
    (hs : s.service = none) (ht : t.service ≠ none) : t.active = true := by
  obtain ⟨hrun, hfault⟩ := (State.active_iff s).mp ha
  obtain hsame | ⟨-, hfault', hrun'⟩ := h.service
  · exact absurd (hsame.trans hs) ht
  · exact (State.active_iff t).mpr ⟨hrun'.trans hrun, hfault'.trans hfault⟩

/-- A fault raised in a run leaves `running` set (R200). -/
theorem ExecFrame.running_of_fault {i : Instr} {s t : State} (h : ExecFrame i s t) (ha : s.active = true)
    (ht : t.fault ≠ .none) : t.running = true := by
  obtain ⟨hrun, hfault⟩ := (State.active_iff s).mp ha
  obtain hsame | ⟨-, -, hrun'⟩ := h.fault
  · exact absurd (hsame.trans hfault) ht
  · exact hrun'.trans hrun

theorem Dispatched.active {s u : State} (h : Dispatched s u) (ha : s.active = true) : u.active = true := by
  obtain ⟨hrun, hfault⟩ := (State.active_iff s).mp ha
  exact (State.active_iff u).mpr ⟨h.running.trans hrun, h.fault.trans hfault⟩

/-- The invariant is carried by an instruction dispatched in a run. -/
theorem machineInv_of_execFrame {s u t : State} {i : Instr} (hinv : MachineInv s) (ha : s.active = true)
    (hd : Dispatched s u) (h : ExecFrame i u t) : MachineInv t := by
  obtain ⟨hwf, hcfg, hcond, -, hhas, -⟩ := hinv
  have hcfg' : t.cfg = s.cfg := h.cfg.trans hd.cfg
  have hrun : s.running = true := ((State.active_iff s).mp ha).1
  refine ⟨?_, hcfg' ▸ hcfg, ?_, h.active_of_service (hd.active ha) hd.service,
    fun _ => ((h.hasRun.trans hd.hasRun).trans (hhas hrun)), h.running_of_fault (hd.active ha)⟩
  · have hwf' := h.wf (hd.cfg ▸ hd.wf hwf)
    rwa [hcfg', ← hd.cfg]
  · obtain hc | ⟨v, hc⟩ := h.cond
    · rwa [hc, hd.cond]
    · rw [hc]
      exact flagOf_legal v

theorem step_keeps_machineInv {s t : State} (hinv : MachineInv s) (h : step s = .next t) : MachineInv t := by
  obtain rfl | ⟨ha, i, u, hd, hframe⟩ := step_next h
  · exact hinv
  · exact machineInv_of_execFrame hinv ha hd hframe

/-- Settles O7, from the frame of a step. -/
theorem stepKeepsInvariant : Obligations.StepKeepsInvariant := by
  unfold Obligations.StepKeepsInvariant
  exact fun s t hinv h => step_keeps_machineInv hinv h

theorem resetOf_machineInv {c : Config} (hc : ConfigLegal c) : MachineInv (State.resetOf c) := by
  obtain ⟨hk, hcond, hmap⟩ := hc
  exact ⟨Memory.wf_nil _, ⟨hk, hcond, hmap⟩, hcond, fun h => absurd rfl h, nofun, fun h => absurd rfl h⟩

theorem defaultConfig_legal : ConfigLegal defaultConfig :=
  ⟨by decide, .inr (.inl rfl), opcodeMapDefault_legal⟩

/-- Settles O6: memory is empty and no run, fault or service is marked after reset. -/
theorem invariantHoldsAfterReset : Obligations.InvariantHoldsAfterReset := by
  unfold Obligations.InvariantHoldsAfterReset
  exact ⟨fun c hc => resetOf_machineInv hc, resetOf_machineInv defaultConfig_legal⟩

/-! ### The console -/

/-- Settles O54: the source's and the sink's order go through the dispatch and the instruction, both transitive. -/
theorem consoleIsTakenAndGivenInOrder : Obligations.ConsoleIsTakenAndGivenInOrder := by
  unfold Obligations.ConsoleIsTakenAndGivenInOrder
  intro s t h
  obtain rfl | ⟨-, i, u, hd, hframe⟩ := step_next h
  · exact ⟨List.suffix_refl _, List.prefix_refl _, rfl⟩
  · exact ⟨hframe.input.trans hd.input, hd.output.trans hframe.output, hframe.cfg.trans hd.cfg⟩

/-! ### The loop's test and the fetch -/

/-- A core not in a run stutters (R174, R175). -/
theorem step_of_not_active {s : State} (h : s.active = false) : step s = .next s := by simp [step, h]

/-- A core in a run and inside no service fetches (R170). -/
theorem step_eq_fetch {s : State} (ha : s.active = true) (hs : s.service = none) :
    step s = fetch s fun ir s' => exec (decode s'.cfg.opcodeMap ir) s' := by
  simp [step, ha, hs]

/-- A core in a run and inside a service goes on with it (R216). -/
theorem step_eq_resume {s : State} {v : Service} (ha : s.active = true) (hs : s.service = some v) :
    step s = resume v s := by
  simp [step, ha, hs]

/-- The step of a core whose fetch is an ordinary read (R24, R170). -/
theorem step_eq_exec {s : State} (ha : s.active = true) (hs : s.service = none) (hpc : s.pc ≠ s.cfg.kbsrAddr) :
    step s = exec (decode s.cfg.opcodeMap (s.cell s.pc)) (s.setPc (s.pc + 1)) := by
  rw [step_eq_fetch ha hs, fetch, withRead_plain hpc]
  rfl

/-- Settles O9, from `step_eq_exec`. -/
theorem stepRunsTheDecodedInstruction : Obligations.StepRunsTheDecodedInstruction := by
  unfold Obligations.StepRunsTheDecodedInstruction
  exact fun s hr hf hs hpc => step_eq_exec ((State.active_iff s).mpr ⟨hr, hf⟩) hs hpc

/-- Settles O10, from the loop's test. -/
theorem stoppedCoreStaysAsItIs : Obligations.StoppedCoreStaysAsItIs := by
  unfold Obligations.StoppedCoreStaysAsItIs
  intro s h
  refine step_of_not_active (Bool.eq_false_iff.mpr fun ha => ?_)
  obtain ⟨hrun, hfault⟩ := (State.active_iff s).mp ha
  obtain hstop | hstop := h
  · exact Bool.false_ne_true (hstop.symm.trans hrun)
  · exact hstop hfault

/-- The word placed and what placing it leaves (log 16). -/
theorem withFetchWord_toNat (s : State) (w : Word) : s.withFetchWord 16 w.toNat = placeWord w s := by
  rw [State.withFetchWord, Nat.mod_eq_of_lt w.isLt, BitVec.ofNat_toNat, BitVec.setWidth_eq]

/-- Settles O12: the state with the word placed is in a run, and its fetch reads the placed cell. -/
theorem placedWordRunsNext : Obligations.PlacedWordRunsNext := by
  unfold Obligations.PlacedWordRunsNext
  intro s w hpc
  refine ⟨(placeWord w s).setPc (s.pc + 1), ?_, rfl, fun _ => rfl, rfl, rfl, rfl, rfl,
    onlyCellWritten_setCell s.pc w s, ⟨rfl, rfl⟩, rfl⟩
  have hcell : (placeWord w s).cell (placeWord w s).pc = w := State.setCell_cell_self s s.pc w
  rw [withFetchWord_toNat, step_eq_exec (s := placeWord w s) rfl rfl hpc, hcell]
  rfl

end Sys2Proof.Machine
end

section
/-!
PROOFS. ADD and AND in their register form, NOT (spec 40_operate R110, R112, R114, R115), and JMP, JSRR and the reserved
opcodes (41_control R122, R124, R126). None of them reads memory, so each completes in every state.
-/

namespace Sys2Proof.Machine

/-! ### Operate instructions -/

theorem exec_addReg (dst src1 src2 : RegNum) (s : State) :
    exec (.addReg dst src1 src2) s = .next (writeWithFlags dst (s.reg src1 + s.reg src2) s) := rfl

theorem exec_andReg (dst src1 src2 : RegNum) (s : State) :
    exec (.andReg dst src1 src2) s = .next (writeWithFlags dst (s.reg src1 &&& s.reg src2) s) := rfl

theorem exec_not (dst src : RegNum) (s : State) :
    exec (.not dst src) s = .next (writeWithFlags dst (~~~ s.reg src) s) := rfl

/-- R114: the complement of a word is 65535 minus it. -/
theorem not_eq_ofNat_sub (v : Word) : ~~~ v = BitVec.ofNat 16 (65535 - v.toNat) := by
  apply BitVec.eq_of_toNat_eq
  rw [BitVec.toNat_not, BitVec.toNat_ofNat]
  omega

/-- Settles O13: the decoder's register arm, and the sum of words as the sum of their numbers modulo 65536. -/
theorem addRegisterForm : Obligations.AddRegisterForm := by
  unfold Obligations.AddRegisterForm
  refine ⟨fun m ir hop hmode => decode_addReg hop hmode, fun dst src1 src2 s => ?_⟩
  rw [← BitVec.add_def]
  exact completes_writeWithFlags (exec_addReg dst src1 src2 s)

/-- Settles O15: the decoder's register arm, and the AND of both sources. -/
theorem andRegisterForm : Obligations.AndRegisterForm := by
  unfold Obligations.AndRegisterForm
  exact ⟨fun m ir hop hmode => decode_andReg hop hmode,
    fun dst src1 src2 s => completes_writeWithFlags (exec_andReg dst src1 src2 s)⟩

/-- Settles O17, the complement as a number by `not_eq_ofNat_sub`. -/
theorem notComplements : Obligations.NotComplements := by
  unfold Obligations.NotComplements
  refine ⟨fun m ir hop => decode_not hop, fun dst src s => ?_⟩
  rw [← not_eq_ofNat_sub]
  exact completes_writeWithFlags (exec_not dst src s)

/-- What a register with its flags reads back. -/
theorem writeWithFlags_reg_self (d : RegNum) (v : Word) (s : State) : (writeWithFlags d v s).reg d = v :=
  State.setReg_reg_self s d v

/-- R115: the complement plus one is the negation. -/
theorem not_add_sext_one (v : Word) : ~~~ v + sext (1 : BitVec 5) = 0 - v := by
  have hone : sext (1 : BitVec 5) = 1 := by decide
  rw [hone]
  bv_omega

/-- Settles O18: each of the two instructions reads what the register holds, and the sum is the negation. -/
theorem notThenAddOneNegates : Obligations.NotThenAddOneNegates := by
  unfold Obligations.NotThenAddOneNegates
  intro r s
  have hneg : (writeWithFlags r ((writeWithFlags r (~~~ s.reg r) s).reg r + sext (1 : BitVec 5))
      (writeWithFlags r (~~~ s.reg r) s)).reg r = 0 - s.reg r := by
    rw [writeWithFlags_reg_self, writeWithFlags_reg_self, not_add_sext_one]
  refine ⟨_, _, exec_not r r s, exec_addImm r r 1 _, hneg, fun h => ?_⟩
  rw [hneg, h]
  decide

/-! ### Control transfer -/

theorem exec_jmp (base : RegNum) (s : State) : exec (.jmp base) s = .next (s.setPc (s.reg base)) := rfl

/-- JSRR reads its base after R7 is written (D17). -/
theorem exec_jsrr (base : RegNum) (s : State) :
    exec (.jsrr base) s = .next ((s.setReg 7 s.pc).setPc ((s.setReg 7 s.pc).reg base)) := rfl

theorem exec_res8 (ignored : BitVec 12) (s : State) : exec (.res8 ignored) s = .next s := rfl

theorem exec_res13 (ignored : BitVec 12) (s : State) : exec (.res13 ignored) s = .next s := rfl

/-- Settles O20: JMP is an update of pc alone. -/
theorem jumpGoesToTheBaseRegister : Obligations.JumpGoesToTheBaseRegister := by
  unfold Obligations.JumpGoesToTheBaseRegister
  exact ⟨fun m ir hop => decode_jmp hop, fun base s =>
    ⟨_, exec_jmp base s, State.setPc_pc s _, sameRegs_setPc _ s, State.setPc_cond s _, sameCells_setPc _ s,
      sameConsole_setPc _ s, sameControl_setPc _ s⟩⟩

/-- Settles O22: the base is read after R7 is written, so base R7 reads the pc just saved. -/
theorem jsrrSavesPcThenReadsBase : Obligations.JsrrSavesPcThenReadsBase := by
  unfold Obligations.JsrrSavesPcThenReadsBase
  refine ⟨fun m ir hop hmode => decode_jsrr hop hmode, fun base s =>
    ⟨_, exec_jsrr base s, onlyRegWritten_setReg_setPc 7 s.pc _ s, fun hbase => ?_, fun hbase => ?_,
      State.setReg_cond s 7 s.pc, sameCells_setPc _ (s.setReg 7 s.pc), sameConsole_setPc _ (s.setReg 7 s.pc),
      sameControl_setPc _ (s.setReg 7 s.pc)⟩⟩
  · rw [State.setPc_pc, State.setReg_reg_of_ne s s.pc hbase]
  · rw [State.setPc_pc, hbase, State.setReg_reg_self]

/-- Settles O23: JMP R7 goes to the pc a call saved in R7. -/
theorem returnComesBackAfterTheCall : Obligations.ReturnComesBackAfterTheCall := by
  unfold Obligations.ReturnComesBackAfterTheCall
  refine fun s => ⟨fun offset11 => ⟨_, _, exec_jsr offset11 s, exec_jmp 7 _, ?_⟩,
    fun base => ⟨_, _, exec_jsrr base s, exec_jmp 7 _, ?_⟩⟩
  · rw [State.setPc_pc, State.setPc_reg, State.setReg_reg_self]
  · rw [State.setPc_pc, State.setPc_reg, State.setReg_reg_self]

/-- Under a legal OPCODE_MAP a word of opcode 8 or 13 decodes to a no-op (R81, R126). -/
theorem exec_decode_reserved {m : OpcodeMap} (hm : OpcodeMapLegal m) {w : Word}
    (hw : w.extractLsb' 12 4 = 8 ∨ w.extractLsb' 12 4 = 13) (s : State) : exec (decode m w) s = .next s := by
  obtain ⟨h8, h13, -⟩ := hm
  obtain hop | hop := hw
  · rw [decode_res8 (by rw [opField, hop, h8]), exec_res8]
  · rw [decode_res13 (by rw [opField, hop, h13]), exec_res13]

/-- Settles O24: the step of a reserved word is its fetch and nothing more. -/
theorem reservedOpcodesDoNothing : Obligations.ReservedOpcodesDoNothing := by
  unfold Obligations.ReservedOpcodesDoNothing
  refine ⟨fun ignored s => ⟨exec_res8 ignored s, exec_res13 ignored s⟩, fun s hw hm hr hf hs hpc => ?_⟩
  rw [step_eq_exec ((State.active_iff s).mpr ⟨hr, hf⟩) hs hpc, exec_decode_reserved hm hw]
  rfl

end Sys2Proof.Machine
end

section
/-!
PROOFS. `MemRead` (spec 20_memory R53, R54, R58, R70) and the instructions that go through it: LD, LDR, LDI and STI
(42_load_store R135, R136, R137, R140); and the fetch at KBSR_ADDR (45_run_loop_and_host R172). The rule of a read is
proved once, by whether the source fails it, and each instruction cites it.
-/

namespace Sys2Proof.Machine

/-! ### The rule of a read -/

theorem sameControl_trans {s t u : State} (h : SameControl s t) (k : SameControl t u) : SameControl s u := by
  obtain ⟨hrun, hfault, hserv, hhas, hcfg⟩ := h
  obtain ⟨krun, kfault, kserv, khas, kcfg⟩ := k
  exact ⟨krun.trans hrun, kfault.trans hfault, kserv.trans hserv, khas.trans hhas, kcfg.trans hcfg⟩

theorem sameControl_cfg {s t : State} (h : SameControl s t) : t.cfg = s.cfg := by
  obtain ⟨-, -, -, -, hcfg⟩ := h
  exact hcfg

/-- A read leaves everything but memory and the source (R53, R54). -/
theorem memRead_value_keeps {a v : Word} {s t : State} (h : memRead a s = .value v t) :
    SameRegs s t ∧ t.cond = s.cond ∧ t.pc = s.pc ∧ t.output = s.output ∧ SameControl s t := by
  obtain ⟨v', t', hread, hio, hout, hfault, hserv, -⟩ | ⟨t', hread, -⟩ := memRead_frame a s
  · obtain ⟨-, rfl⟩ : v' = v ∧ t' = t := by simpa [h] using hread.symm
    exact ⟨hio.reg, hio.cond, hio.pc, hout, hio.running, hfault, hserv, hio.hasRun, hio.cfg⟩
  · simp [h] at hread

/-- A read that the source does not fail (R53, R54). -/
theorem memRead_of_not_fails {a : Word} {s : State} (hk : s.cfg.kbsrAddr ≠ s.cfg.kbdrAddr) (h : ¬ ReadFails a s) :
    ∃ v t, memRead a s = .value v t ∧ ReadEffect a v s t ∧ SameRegs s t ∧ t.cond = s.cond ∧ t.pc = s.pc ∧
      t.output = s.output ∧ SameControl s t := by
  obtain ⟨v, t, hread, -⟩ | ⟨t, -, -, -, hfail⟩ := memRead_frame a s
  · exact ⟨v, t, hread, memRead_effect hk hread, memRead_value_keeps hread⟩
  · exact absurd hfail h

/-- A read that the source fails takes the failure and changes nothing else (R70; log 23). -/
theorem memRead_of_fails {a : Word} {s : State} (h : ReadFails a s) :
    memRead a s = .inputError (s.setInput s.input.tail) := by
  obtain ⟨v, t, -, -, -, -, -, hnot⟩ | ⟨t, hread, ht, -, -⟩ := memRead_frame a s
  · exact absurd h hnot
  · rw [hread, ht]

/-- Settles O33, from the two rules of a read. -/
theorem memReadPollsOnlyAtKeyboardStatus : Obligations.MemReadPollsOnlyAtKeyboardStatus := by
  unfold Obligations.MemReadPollsOnlyAtKeyboardStatus
  intro a s hk
  exact ⟨memRead_of_not_fails hk, fun h => ⟨_, memRead_of_fails h, fun _ => rfl, fun _ => rfl, rfl, rfl, rfl,
    rfl, rfl, rfl, rfl, rfl⟩⟩

/-- Settles O34: away from KBSR_ADDR the read answers the cell; there it answers the poll's word. -/
theorem readAfterWriteRoundTrip : Obligations.ReadAfterWriteRoundTrip := by
  unfold Obligations.ReadAfterWriteRoundTrip
  intro a v s hk
  rw [memWrite_eq]
  refine ⟨fun ha => ?_, ?_⟩
  · rw [memRead_plain (s := s.setCell a v) ha, State.setCell_cell_self]
  · rintro rfl
    obtain ⟨w, t, hread, -⟩ | ⟨t, hread, -⟩ := memRead_frame s.cfg.kbsrAddr (s.setCell s.cfg.kbsrAddr v)
    · refine ⟨t, ?_⟩
      obtain rfl | rfl := memRead_kbsr_value (s := s.setCell s.cfg.kbsrAddr v) hk hread
      · exact .inl hread
      · exact .inr (.inl hread)
    · exact ⟨t, .inr (.inr hread)⟩

/-- The effect of a read is said of cells and the source alone. -/
theorem readEffect_congr {a v : Word} {s t u : State} (h : ReadEffect a v s t) (hcell : ∀ x, u.cell x = t.cell x)
    (hinput : u.input = t.input) : ReadEffect a v s u := by
  simpa only [ReadEffect, SameCells, OnlyCellWritten, hcell, hinput] using h

/-- Raising InputError after the failure was taken from the source changes nothing else (R200, R201). -/
theorem onlyInputErrorRaised_setInput (es : List InputEvent) (s : State) :
    OnlyInputErrorRaised s (raise .inputError (s.setInput es)) :=
  ⟨rfl, fun _ => rfl, rfl, rfl, fun _ => rfl, rfl, rfl, rfl, rfl, rfl⟩

/-- What goes on from a failing read is InputError and nothing else (R70, R200). -/
theorem withRead_of_fails {a : Word} {s : State} (h : ReadFails a s) (k : Word → State → Result) :
    ∃ t, withRead a s k = .next t ∧ OnlyInputErrorRaised s t :=
  ⟨_, withRead_inputError (memRead_of_fails h) k, onlyInputErrorRaised_setInput _ s⟩

/-! ### Loads -/

/-- The destination written from a state `m` that a read of `s` left, said from `s`. -/
theorem writesDest_trans {d : RegNum} {v : Word} {s m t : State} (h : WritesDest d v m t) (hregs : SameRegs s m)
    (hpc : m.pc = s.pc) (hctl : SameControl s m) : WritesDest d v s t := by
  obtain ⟨⟨hd, hother⟩, hflag, hpc', hctl'⟩ := h
  exact ⟨⟨hd, fun r hr => (hother r hr).trans (hregs r)⟩, hflag, hpc'.trans hpc, sameControl_trans hctl hctl'⟩

/-- One read and then `x[d] <- v; setcc(v)`: how LD and LDR end, and LDI after its pointer (R135, R136, R137). -/
def readIntoReg (a : Word) (d : RegNum) (s : State) : Result :=
  withRead a s fun v s' => .next (writeWithFlags d v s')

theorem exec_ld (dst : RegNum) (offset9 : BitVec 9) (s : State) :
    exec (.ld dst offset9) s = readIntoReg (s.pc + sext offset9) dst s := rfl

theorem exec_ldr (dst base : RegNum) (offset6 : BitVec 6) (s : State) :
    exec (.ldr dst base offset6) s = readIntoReg (s.reg base + sext offset6) dst s := rfl

theorem exec_ldi (dst : RegNum) (offset9 : BitVec 9) (s : State) :
    exec (.ldi dst offset9) s = withRead (s.pc + sext offset9) s fun p s' => readIntoReg p dst s' := rfl

/-- A load's read that does not fail: the value in the destination with its flags, the read's effect, nothing else. -/
theorem readIntoReg_of_not_fails {a : Word} {s : State} (d : RegNum) (hk : s.cfg.kbsrAddr ≠ s.cfg.kbdrAddr)
    (h : ¬ ReadFails a s) : ∃ v t, readIntoReg a d s = .next t ∧
      ReadEffect a v s t ∧ WritesDest d v s t ∧ t.output = s.output := by
  obtain ⟨v, u, hread, heff, hregs, -, hpc, hout, hctl⟩ := memRead_of_not_fails hk h
  exact ⟨v, writeWithFlags d v u, withRead_value hread _, readEffect_congr heff (fun _ => rfl) rfl,
    writesDest_trans (writeWithFlags_writesDest d v u) hregs hpc hctl, hout⟩

/-- A load from an ordinary cell. -/
theorem readIntoReg_plain {a : Word} {s : State} (d : RegNum) (h : a ≠ s.cfg.kbsrAddr) :
    readIntoReg a d s = .next (writeWithFlags d (s.cell a) s) := withRead_plain h _

/-- Settles O25: LD is one read into the destination. -/
theorem loadPcRelative : Obligations.LoadPcRelative := by
  unfold Obligations.LoadPcRelative
  refine ⟨fun m ir hop => decode_ld hop, fun dst offset9 s hk => ?_⟩
  rw [exec_ld]
  exact ⟨readIntoReg_of_not_fails dst hk, fun h => withRead_of_fails h _⟩

/-- Settles O26: LDR is one read into the destination. -/
theorem loadBasePlusOffset : Obligations.LoadBasePlusOffset := by
  unfold Obligations.LoadBasePlusOffset
  refine ⟨fun m ir hop => decode_ldr hop, fun dst base offset6 s hk => ?_⟩
  rw [exec_ldr]
  exact ⟨readIntoReg_of_not_fails dst hk, fun h => withRead_of_fails h _⟩

/-- LDI whose pointer's read does not fail: the read of the data starts in the state `m` the pointer's read left. -/
theorem ldi_of_not_fails {s : State} (dst : RegNum) (offset9 : BitVec 9) (hk : s.cfg.kbsrAddr ≠ s.cfg.kbdrAddr)
    (h : ¬ ReadFails (s.pc + sext offset9) s) : ∃ p m, ReadEffect (s.pc + sext offset9) p s m ∧ SameRegs s m ∧
      m.cond = s.cond ∧ m.pc = s.pc ∧ m.output = s.output ∧ SameControl s m ∧
      (¬ ReadFails p m → ∃ v t, exec (.ldi dst offset9) s = .next t ∧
        ReadEffect p v m t ∧ WritesDest dst v s t ∧ t.output = s.output) ∧
      (ReadFails p m → ∃ t, exec (.ldi dst offset9) s = .next t ∧ OnlyInputErrorRaised m t) := by
  obtain ⟨p, m, hread, heff, hregs, hcond, hpc, hout, hctl⟩ := memRead_of_not_fails hk h
  rw [exec_ldi, withRead_value hread]
  refine ⟨p, m, heff, hregs, hcond, hpc, hout, hctl, fun hnot => ?_, fun hfail => withRead_of_fails hfail _⟩
  obtain ⟨v, t, ht, heff', hdest, hout'⟩ := readIntoReg_of_not_fails dst (sameControl_cfg hctl ▸ hk) hnot
  exact ⟨v, t, ht, heff', writesDest_trans hdest hregs hpc hctl, hout'.trans hout⟩

/-- Settles O27: the pointer's read, then the data's; both are ordinary where neither is at KBSR_ADDR. -/
theorem loadIndirect : Obligations.LoadIndirect := by
  unfold Obligations.LoadIndirect
  refine ⟨fun m ir hop => decode_ldi hop, fun dst offset9 s hk =>
    ⟨ldi_of_not_fails dst offset9 hk, fun hp hd => completes_writeWithFlags ?_, fun h => withRead_of_fails h _⟩⟩
  rw [exec_ldi, withRead_plain hp, readIntoReg_plain dst hd]

/-! ### STI -/

theorem exec_sti (src : RegNum) (offset9 : BitVec 9) (s : State) :
    exec (.sti src offset9) s =
      withRead (s.pc + sext offset9) s fun p s' => .next (memWrite p (s'.reg src) s') := rfl

/-- Settles O31: the store goes to the pointer read, in the state its read left. -/
theorem storeIndirect : Obligations.StoreIndirect := by
  unfold Obligations.StoreIndirect
  refine ⟨fun m ir hop => decode_sti hop, fun src offset9 s hk => ⟨fun h => ?_, fun h => withRead_of_fails h _⟩⟩
  obtain ⟨p, m, hread, heff, hregs, hcond, hpc, hout, hctl⟩ := memRead_of_not_fails hk h
  refine ⟨p, m, m.setCell p (s.reg src), ?_, heff, onlyCellWritten_setCell p _ m, rfl, hregs, hcond, hpc, hout,
    sameControl_trans hctl (sameControl_setCell p _ m)⟩
  rw [exec_sti, withRead_value hread, memWrite_eq, hregs src]

/-! ### The fetch -/

/-- Settles O35: ST with offset 0 writes the cell at pc, which the next step, an ordinary one, decodes. -/
theorem storeIsSeenByTheNextFetch : Obligations.StoreIsSeenByTheNextFetch := by
  unfold Obligations.StoreIsSeenByTheNextFetch
  intro src s hr hf hs hpc
  have haddr : pcRelative (0 : BitVec 9) s = s.pc := by
    have hzero : sext (0 : BitVec 9) = 0 := by decide
    rw [pcRelative, hzero]
    exact BitVec.add_zero _
  refine ⟨s.setCell s.pc (s.reg src), by rw [exec_st, haddr, memWrite_eq], ?_⟩
  have hstep := step_eq_exec (s := s.setCell s.pc (s.reg src)) ((State.active_iff _).mpr ⟨hr, hf⟩) hs hpc
  rwa [State.setCell_pc, State.setCell_cell_self] at hstep

/-- Either word of the poll is a no-op where OPCODE_MAP gives 8 to the reserved opcode and 0 to BR (D3): 0x0000 is BR
with no condition bit, which is never taken. -/
theorem exec_decode_pollWord {m : OpcodeMap} (h8 : opcodeOf m 8 = .reserved8) (h0 : opcodeOf m 0 = .br) {v : Word}
    (hv : v = 0x8000 ∨ v = 0x0000) (s : State) : exec (decode m v) s = .next s := by
  obtain rfl | rfl := hv
  · rw [decode_res8 h8, exec_res8]
  · have hnever : ¬ branchTaken false false false s = true := by
      rw [branchTaken_iff]
      exact not_not_intro BitVec.zero_and
    rw [decode_br h0]
    exact (exec_br false false false _ s).trans (by rw [if_neg hnever]; rfl)

/-- Settles O11: the rule of a read at pc, with pc advanced after it; the word read is one of the poll's two. -/
theorem fetchAtKeyboardStatusPolls : Obligations.FetchAtKeyboardStatusPolls := by
  unfold Obligations.FetchAtKeyboardStatusPolls
  intro s hr hf hs hpc hk
  rw [step_eq_fetch ((State.active_iff s).mpr ⟨hr, hf⟩) hs, fetch]
  refine ⟨fun h => ?_, fun h => withRead_of_fails h _⟩
  obtain ⟨v, u, hread, heff, hregs, hcond, hupc, hout, hctl⟩ := memRead_of_not_fails hk h
  have hv : v = 0x8000 ∨ v = 0x0000 := memRead_kbsr_value hk (hpc ▸ hread)
  have hstep : withRead s.pc s (fun ir s' => exec (decode (s'.setPc (s'.pc + 1)).cfg.opcodeMap ir)
      (s'.setPc (s'.pc + 1))) = exec (decode s.cfg.opcodeMap v) (u.setPc (u.pc + 1)) := by
    rw [withRead_value hread, State.setPc_cfg, sameControl_cfg hctl]
  refine ⟨v, u.setPc (u.pc + 1), readEffect_congr heff (fun _ => rfl) rfl, hv, by rw [State.setPc_pc, hupc], hregs,
    hcond, hout, sameControl_trans hctl (sameControl_setPc _ u), hstep, fun h8 h0 => ?_⟩
  exact hstep.trans (exec_decode_pollWord h8 h0 hv _)

end Sys2Proof.Machine
end

section
/-!
PROOFS. TRAP (spec 43_trap R150 to R154, R157, R160, R161; 60_exceptions R202, R216): the decoded service, the blocking
reads GETC and IN by what the source answers, and the services that read nothing.
-/

namespace Sys2Proof.Machine

/-- R87: the service a trap code selects, whatever bits 11:8 are (D15). -/
theorem decode_of_trapField {m : OpcodeMap} {ir : Word} {code : Byte} (hop : opcodeOf m (opField ir) = .trap)
    (hcode : trapField ir = code) : decode m ir = decodeTrap code := by
  rw [decode_trap hop, hcode]

/-! ### GETC and IN, by the source's answer -/

theorem exec_getc (s : State) : exec .trapGetc s = getcRead s := rfl

/-- The prompt of IN is written before it reads (R157). -/
theorem exec_in (s : State) : exec .trapIn s = inRead (consolePutAll s.cfg.inPrompt s) := rfl

section
variable {s : State} {b : Byte} {rest : List InputEvent}

theorem getcRead_char (h : getSource s.input = (.char b, rest)) :
    getcRead s = .next (writeWithFlags 0 (zext b) (s.setInput rest)) := by simp [getcRead, h]

theorem getcRead_notReady (h : getSource s.input = (.notReady, rest)) :
    getcRead s = .next ((s.setInput rest).setService (some .getc)) := by simp [getcRead, h]

theorem getcRead_error (h : getSource s.input = (.error, rest)) :
    getcRead s = .next (raise .inputError (s.setInput rest)) := by simp [getcRead, h]

theorem inRead_char (h : getSource s.input = (.char b, rest)) :
    inRead s = .next (writeWithFlags 0 (zext b) (consolePut b (s.setInput rest))) := by simp [inRead, h]

theorem inRead_notReady (h : getSource s.input = (.notReady, rest)) :
    inRead s = .next ((s.setInput rest).setService (some .inChar)) := by simp [inRead, h]

theorem inRead_error (h : getSource s.input = (.error, rest)) :
    inRead s = .next (raise .inputError (s.setInput rest)) := by simp [inRead, h]

/-- GETC's read of a byte: R0 with its flags, the byte taken, nothing else (R153). -/
theorem getcRead_completes (h : getSource s.input = (.char b, rest)) : ∃ t, getcRead s = .next t ∧
    WritesDest 0 (zext b) s t ∧ SameCells s t ∧ t.input = rest ∧ t.output = s.output :=
  ⟨_, getcRead_char h, writesDest_trans (writeWithFlags_writesDest 0 (zext b) (s.setInput rest)) (fun _ => rfl) rfl
    ⟨rfl, rfl, rfl, rfl, rfl⟩, fun _ => rfl, rfl, rfl⟩

/-- IN's read of a byte: as GETC's, and the byte echoed (R157). -/
theorem inRead_completes (h : getSource s.input = (.char b, rest)) : ∃ t, inRead s = .next t ∧
    WritesDest 0 (zext b) s t ∧ SameCells s t ∧ t.input = rest ∧ t.output = s.output ++ [b] :=
  ⟨_, inRead_char h, writesDest_trans (writeWithFlags_writesDest 0 (zext b) (consolePut b (s.setInput rest)))
    (fun _ => rfl) rfl ⟨rfl, rfl, rfl, rfl, rfl⟩, fun _ => rfl, rfl, rfl⟩

end

/-- Settles O36: the source's answer after the quiet spells is the byte or the failure. -/
theorem getcReadsOneByte : Obligations.GetcReadsOneByte := by
  unfold Obligations.GetcReadsOneByte
  refine ⟨fun m ir hop hcode => decode_of_trapField hop hcode, fun k rest s => ⟨fun b h => ?_, fun h => ?_⟩⟩
  · rw [exec_getc]
    exact getcRead_completes (h ▸ getSource_quiet_byte k b rest)
  · exact ⟨_, getcRead_error (h ▸ getSource_quiet_failure k rest), onlyInputErrorRaised_setInput rest s⟩

/-- Settles O40: the prompt is written first, and the read starts in the state that holds it. -/
theorem inPromptsReadsAndEchoes : Obligations.InPromptsReadsAndEchoes := by
  unfold Obligations.InPromptsReadsAndEchoes
  refine ⟨fun m ir hop hcode => decode_of_trapField hop hcode, fun k rest s => ⟨fun b h => ?_, fun h => ?_⟩⟩
  · rw [exec_in]
    exact inRead_completes (s := consolePutAll s.cfg.inPrompt s) (h ▸ getSource_quiet_byte k b rest)
  · exact ⟨_, inRead_error (s := consolePutAll s.cfg.inPrompt s) (h ▸ getSource_quiet_failure k rest),
      onlyInputErrorRaised_setInput rest _⟩

/-! ### A blocked read (R182, R216) -/

theorem resume_getc (s : State) : resume .getc s = getcRead (s.setService none) := rfl

theorem resume_inChar (s : State) : resume .inChar s = inRead (s.setService none) := rfl

/-- A core in a run and inside a blocking read is blocked. -/
theorem status_of_blockingRead {s : State} (hr : s.running = true) (hf : s.fault = .none)
    (hs : s.service = some .getc ∨ s.service = some .inChar) : s.status = .blocked := by
  obtain hs | hs := hs
  · simp [State.status, hr, hf, hs]
  · simp [State.status, hr, hf, hs]

/-- A core blocked in GETC, whose source is used up, stays as it is: it reads again and is answered the same. -/
theorem step_blocked_getc {s : State} (ha : s.active = true) (hs : s.service = some .getc) (hi : s.input = []) :
    step s = .next s := by
  have hsource : getSource (s.setService none).input = (.notReady, []) := by rw [State.setService_input, hi]; rfl
  rw [step_eq_resume ha hs, resume_getc, getcRead_notReady hsource, ← hs, ← hi]
  rfl

/-- The same of a core blocked in IN, which writes no second prompt. -/
theorem step_blocked_inChar {s : State} (ha : s.active = true) (hs : s.service = some .inChar) (hi : s.input = []) :
    step s = .next s := by
  have hsource : getSource (s.setService none).input = (.notReady, []) := by rw [State.setService_input, hi]; rfl
  rw [step_eq_resume ha hs, resume_inChar, inRead_notReady hsource, ← hs, ← hi]
  rfl

/-- Settles O45: the quiet spells are passed over and the end of the source leaves the service recorded. -/
theorem blockedReadStaysBlocked : Obligations.BlockedReadStaysBlocked := by
  unfold Obligations.BlockedReadStaysBlocked
  intro s hr hf _ hquiet
  have ha : s.active = true := (State.active_iff s).mpr ⟨hr, hf⟩
  exact ⟨⟨_, getcRead_notReady (getSource_all_quiet hquiet), rfl, status_of_blockingRead hr hf (.inl rfl),
      step_blocked_getc ha rfl rfl⟩,
    ⟨_, inRead_notReady (s := consolePutAll s.cfg.inPrompt s) (getSource_all_quiet hquiet), rfl,
      status_of_blockingRead hr hf (.inr rfl), step_blocked_inChar ha rfl rfl⟩⟩

/-- Settles O46: the step goes on with the read from the state that has left the service. -/
theorem blockedReadCompletesOnAByte : Obligations.BlockedReadCompletesOnAByte := by
  unfold Obligations.BlockedReadCompletesOnAByte
  intro b rest s hr hf hi
  have ha : s.active = true := (State.active_iff s).mpr ⟨hr, hf⟩
  have hsource : getSource (s.setService none).input = (.char b, rest) := by rw [State.setService_input, hi]; rfl
  refine ⟨fun hs => ?_, fun hs => ?_⟩
  · rw [step_eq_resume ha hs, resume_getc]
    exact getcRead_completes hsource
  · rw [step_eq_resume ha hs, resume_inChar]
    exact inRead_completes hsource

/-! ### The services that read nothing -/

theorem exec_out (s : State) : exec .trapOut s = .next (consolePut (lowByte (s.reg 0)) s) := rfl

theorem exec_halt (s : State) : exec .trapHalt s = .next (s.setRunning false) := rfl

theorem exec_trapUnrecognised (code : Byte) (s : State) :
    exec (.trapUnrecognised code) s = .next (s.setFault (.unrecognizedTrapCode code)) := rfl

/-- Settles O37: OUT is one write to the sink. -/
theorem outWritesLowByte : Obligations.OutWritesLowByte := by
  unfold Obligations.OutWritesLowByte
  exact ⟨fun m ir hop hcode => decode_of_trapField hop hcode, exec_out⟩

/-- Settles O43: HALT is one write to `running`, and the loop's test then stops every step. -/
theorem haltEndsTheRun : Obligations.HaltEndsTheRun := by
  unfold Obligations.HaltEndsTheRun
  exact ⟨fun m ir hop hcode => decode_of_trapField hop hcode, fun s => ⟨exec_halt s, step_of_not_active rfl⟩⟩

/-- A core stopped by a fatal error takes no further step (R174, R200). -/
theorem active_of_fault {s : State} (h : s.fault ≠ .none) : s.active = false := by simp [State.active, h]

/-- Settles O44: the fallback row raises its code, and the loop's test then stops every step. -/
theorem unrecognisedTrapIsFatal : Obligations.UnrecognisedTrapIsFatal := by
  unfold Obligations.UnrecognisedTrapIsFatal
  refine ⟨fun m ir hop hcode => ?_, fun code s =>
    ⟨exec_trapUnrecognised code s, step_of_not_active (active_of_fault nofun)⟩⟩
  have hnot : isServiceCode (trapField ir) = false := by
    simp only [isServiceCode, Bool.and_eq_false_iff, decide_eq_false_iff_not]
    exact not_and_or.mp hcode
  rw [decode_trap hop, decodeTrap_of_not_service hnot]
  rfl

end Sys2Proof.Machine
end

section
/-!
PROOFS. The string services (spec 43_trap R155, R156, R158): PUTS and PUTSP over a string shorter than the memory, and
where the string reaches KBSR_ADDR. Both loops write the bytes of the cells before it, and then end by one read.
-/

namespace Sys2Proof.Machine

/-! ### A read and the sink -/

theorem keyboardWrite_consolePutAll (r : ConsoleAnswer) (bs : List Byte) (es : List InputEvent) (s : State) :
    keyboardWrite r ((consolePutAll bs s).setInput es) = consolePutAll bs (keyboardWrite r (s.setInput es)) := by
  cases r <;> rfl

/-- A read neither sees nor changes what the sink has received. -/
theorem memRead_consolePutAll {a v : Word} {s t : State} (bs : List Byte) (h : memRead a s = .value v t) :
    memRead a (consolePutAll bs s) = .value v (consolePutAll bs t) := by
  by_cases ha : a = s.cfg.kbsrAddr
  · by_cases he : (pollSource s.input).1 = .error
    · simp [memRead, ha, he] at h
    · simp only [memRead, ha, he, if_true, if_false, ReadResult.value.injEq] at h
      obtain ⟨rfl, rfl⟩ := h
      simp only [memRead, consolePutAll_cfg, consolePutAll_input, ha, he, if_true, if_false,
        keyboardWrite_consolePutAll, consolePutAll_cell]
  · rw [memRead_plain ha] at h
    obtain ⟨rfl, rfl⟩ := ReadResult.value.inj h
    exact memRead_plain ha

/-! ### PUTS -/

/-- The low bytes of the `n` cells from `a` on: what PUTS writes of them (R155). -/
def putsBytes (n : Nat) (a : Word) (s : State) : List Byte :=
  (List.range n).map fun k => lowByte (s.cell (a + BitVec.ofNat 16 k))

section
variable {f : Nat} {a v : Word} {s t : State}

/-- A cell read as zero ends the string. -/
theorem putsLoop_zero (h : memRead a s = .value 0 t) : putsLoop (f + 1) a s = .next t := by
  rw [putsLoop, withRead_value h, if_pos rfl]

/-- A cell read as non-zero is written and passed. -/
theorem putsLoop_nonzero (h : memRead a s = .value v t) (hv : v ≠ 0) :
    putsLoop (f + 1) a s = putsLoop f (a + 1) (consolePut (lowByte v) t) := by
  rw [putsLoop, withRead_value h, if_neg hv]

end

/-- The cell at `a` holds a character of PUTS, and a read of it polls nothing. -/
def CharCell (a : Word) (s : State) : Prop := s.cell a ≠ 0 ∧ a ≠ s.cfg.kbsrAddr

/-- PUTS after the first `n` cells, with the fuel that is left. -/
theorem exec_puts_prefix {n : Nat} {s : State} (hn : n < 65536)
    (h : ∀ k, k < n → CharCell (s.reg 0 + BitVec.ofNat 16 k) s) :
    exec .trapPuts s = putsLoop (65535 - n + 1) (s.reg 0 + BitVec.ofNat 16 n)
      (consolePutAll (putsBytes n (s.reg 0) s) s) := by
  have hfuel : stringFuel = n + (65535 - n + 1) := by rw [stringFuel]; omega
  rw [putsBytes, ← putsLoop_prefix _ n (s.reg 0) s h, ← hfuel]
  rfl

/-- PUTS over a string that stays away from KBSR_ADDR. -/
theorem exec_puts_plain {n : Nat} {s : State} (hn : n < 65536)
    (h : ∀ k, k < n → s.cell (s.reg 0 + BitVec.ofNat 16 k) ≠ 0) (h0 : s.cell (s.reg 0 + BitVec.ofNat 16 n) = 0)
    (hk : ∀ k, k ≤ n → s.reg 0 + BitVec.ofNat 16 k ≠ s.cfg.kbsrAddr) :
    exec .trapPuts s = .next (consolePutAll (putsBytes n (s.reg 0) s) s) := by
  have hread : memRead (s.reg 0 + BitVec.ofNat 16 n) s = .value 0 s := by rw [memRead_plain (hk n le_rfl), h0]
  rw [exec_puts_prefix hn fun k hlt => ⟨h k hlt, hk k hlt.le⟩]
  exact putsLoop_zero (memRead_consolePutAll _ hread)

/-- PUTS over a string that comes to KBSR_ADDR, where no byte is there. -/
theorem exec_puts_kbsr_quiet {n : Nat} {s : State} (hn : n < 65536)
    (h : ∀ k, k < n → CharCell (s.reg 0 + BitVec.ofNat 16 k) s)
    (hn' : s.reg 0 + BitVec.ofNat 16 n = s.cfg.kbsrAddr) {m : State} (hread : memRead s.cfg.kbsrAddr s = .value 0 m) :
    exec .trapPuts s = .next (consolePutAll (putsBytes n (s.reg 0) s) m) := by
  rw [exec_puts_prefix hn h, hn']
  exact putsLoop_zero (memRead_consolePutAll _ hread)

/-- The addresses after KBSR_ADDR, all around the memory, are not KBSR_ADDR. -/
theorem add_succ_ne_self (a : Word) {k : Nat} (h : k + 1 < 65536) : a + BitVec.ofNat 16 (k + 1) ≠ a := by
  intro he
  have hzero : (BitVec.ofNat 16 (k + 1) : Word).toNat = 0 := by bv_omega
  rw [BitVec.toNat_ofNat] at hzero
  omega

/-- PUTS over a string that comes to KBSR_ADDR, where a byte is there: 0x00 is written and the string goes on. -/
theorem exec_puts_kbsr_byte {n j : Nat} {s m : State} (hnj : n + 1 + j < 65536)
    (h : ∀ k, k < n → CharCell (s.reg 0 + BitVec.ofNat 16 k) s)
    (hn' : s.reg 0 + BitVec.ofNat 16 n = s.cfg.kbsrAddr) (hread : memRead s.cfg.kbsrAddr s = .value 0x8000 m)
    (hj : ∀ k, k < j → m.cell (s.cfg.kbsrAddr + BitVec.ofNat 16 (k + 1)) ≠ 0)
    (h0 : m.cell (s.cfg.kbsrAddr + BitVec.ofNat 16 (j + 1)) = 0) :
    exec .trapPuts s = .next (consolePutAll (putsBytes j (s.cfg.kbsrAddr + 1) m)
      (consolePut 0x00 (consolePutAll (putsBytes n (s.reg 0) s) m))) := by
  obtain ⟨-, -, -, -, hctl⟩ := memRead_value_keeps hread
  have hcfg : m.cfg = s.cfg := sameControl_cfg hctl
  have hne : ∀ k, k ≤ j → s.cfg.kbsrAddr + BitVec.ofNat 16 (k + 1) ≠ m.cfg.kbsrAddr := fun k hk => by
    rw [hcfg]
    exact add_succ_ne_self _ (by omega)
  have hfuel : 65535 - n = j + (65534 - n - j + 1) := by omega
  have hstop : memRead (s.cfg.kbsrAddr + BitVec.ofNat 16 (j + 1)) m = .value 0 m := by
    rw [memRead_plain (hne j le_rfl), h0]
  rw [exec_puts_prefix (by omega) h, hn', putsLoop_nonzero (memRead_consolePutAll _ hread) (by decide), hfuel,
    putsLoop_prefix, addr_succ]
  · exact putsLoop_zero (memRead_consolePutAll _ (memRead_consolePutAll [_] (memRead_consolePutAll _ hstop)))
  · intro k hk
    rw [addr_succ]
    exact ⟨hj k hk, hne k hk.le⟩

/-- Settles O38, from the three forms of a PUTS that ends: the string's zero cell, the poll without a byte, and the
poll with one. -/
theorem putsWritesLowBytes : Obligations.PutsWritesLowBytes := by
  unfold Obligations.PutsWritesLowBytes
  refine ⟨fun m ir hop hcode => decode_of_trapField hop hcode, fun n s hn h h0 hk => exec_puts_plain hn h h0 hk,
    fun n s hn hk h hn' => ⟨fun hquiet => ?_, fun b rest hbyte => ?_⟩⟩
  · have hread := memRead_kbsr_quiet hquiet
    obtain ⟨hregs, hcond, hpc, hout, hctl⟩ := memRead_value_keeps hread
    refine ⟨_, exec_puts_kbsr_quiet hn h hn' hread, readEffect_congr (memRead_effect hk hread) (fun _ => rfl) rfl,
      hregs, hcond, hpc, hctl, rfl⟩
  · obtain ⟨m, hread⟩ : ∃ m, memRead s.cfg.kbsrAddr s = .value 0x8000 m := ⟨_, memRead_kbsr_byte hk hbyte⟩
    obtain ⟨hregs, hcond, hpc, hout, hctl⟩ := memRead_value_keeps hread
    refine ⟨m, memRead_effect hk hread, hregs, hcond, hpc, hout, hctl, fun j hnj hj h0 => ?_⟩
    rw [exec_puts_kbsr_byte hnj h hn' hread hj h0, ← hout]
    simp only [putsBytes, addr_succ]
    rfl

/-- Settles O39: the failing read comes after the bytes before KBSR_ADDR are written. -/
theorem putsKeepsOutputAtInputError : Obligations.PutsKeepsOutputAtInputError := by
  unfold Obligations.PutsKeepsOutputAtInputError
  intro n s hn h hn' hfail
  rw [exec_puts_prefix hn h, hn', putsLoop]
  exact withRead_of_fails (s := consolePutAll (putsBytes n (s.reg 0) s) s) ⟨rfl, hfail⟩ _

/-! ### PUTSP -/

/-- Both bytes of each of the `n` cells from `a` on: what PUTSP writes of them (R158). -/
def putspBytes (n : Nat) (a : Word) (s : State) : List Byte :=
  (List.range n).flatMap fun k =>
    [lowByte (s.cell (a + BitVec.ofNat 16 k)), highByte (s.cell (a + BitVec.ofNat 16 k))]

section
variable {f : Nat} {a v : Word} {s t : State}

/-- A zero low byte ends the string. -/
theorem putspLoop_lowZero (h : memRead a s = .value v t) (hlow : lowByte v = 0) :
    putspLoop (f + 1) a s = .next t := by
  rw [putspLoop, withRead_value h, if_pos hlow]

/-- A zero high byte ends the string after the low byte (C4). -/
theorem putspLoop_highZero (h : memRead a s = .value v t) (hlow : lowByte v ≠ 0) (hhigh : highByte v = 0) :
    putspLoop (f + 1) a s = .next (consolePut (lowByte v) t) := by
  rw [putspLoop, withRead_value h, if_neg hlow, if_pos hhigh]

end

/-- The cell at `a` holds two characters, and a read of it polls nothing. -/
def PackedCell (a : Word) (s : State) : Prop :=
  lowByte (s.cell a) ≠ 0 ∧ highByte (s.cell a) ≠ 0 ∧ a ≠ s.cfg.kbsrAddr

/-- PUTSP after the first `n` cells, with the fuel that is left. -/
theorem exec_putsp_prefix {n : Nat} {s : State} (hn : n < 65536)
    (h : ∀ k, k < n → PackedCell (s.reg 0 + BitVec.ofNat 16 k) s) :
    exec .trapPutsp s = putspLoop (65535 - n + 1) (s.reg 0 + BitVec.ofNat 16 n)
      (consolePutAll (putspBytes n (s.reg 0) s) s) := by
  have hfuel : stringFuel = n + (65535 - n + 1) := by rw [stringFuel]; omega
  rw [putspBytes, ← putspLoop_prefix _ n (s.reg 0) s h, ← hfuel]
  rfl

theorem consolePutAll_nil (s : State) : consolePutAll [] s = s := by simp [consolePutAll]

/-- What PUTSP writes of the cell that ends the string: its low byte, unless that is the zero (C4). -/
def putspLast (w : Word) : List Byte := if lowByte w = 0 then [] else [lowByte w]

/-- PUTSP over a string that stays away from KBSR_ADDR: the last cell ends it by its low byte, or by its high byte
after the low one is written. -/
theorem exec_putsp_plain {n : Nat} {s : State} (hn : n < 65536)
    (h : ∀ k, k < n → PackedCell (s.reg 0 + BitVec.ofNat 16 k) s)
    (hlast : lowByte (s.cell (s.reg 0 + BitVec.ofNat 16 n)) = 0 ∨ highByte (s.cell (s.reg 0 + BitVec.ofNat 16 n)) = 0)
    (hk : s.reg 0 + BitVec.ofNat 16 n ≠ s.cfg.kbsrAddr) :
    exec .trapPutsp s = .next (consolePutAll (putspLast (s.cell (s.reg 0 + BitVec.ofNat 16 n)))
      (consolePutAll (putspBytes n (s.reg 0) s) s)) := by
  have hread := memRead_consolePutAll (putspBytes n (s.reg 0) s) (memRead_plain hk)
  rw [exec_putsp_prefix hn h]
  by_cases hlow : lowByte (s.cell (s.reg 0 + BitVec.ofNat 16 n)) = 0
  · rw [putspLoop_lowZero hread hlow, putspLast, if_pos hlow, consolePutAll_nil]
  · rw [putspLoop_highZero hread hlow (hlast.resolve_left hlow), putspLast, if_neg hlow]
    rfl

/-- Settles O41, from `exec_putsp_plain`. -/
theorem putspWritesPackedBytes : Obligations.PutspWritesPackedBytes := by
  unfold Obligations.PutspWritesPackedBytes
  refine ⟨fun m ir hop hcode => decode_of_trapField hop hcode, fun n s hn h hlast hk =>
    exec_putsp_plain hn (fun k hlt => ?_) hlast (hk n le_rfl)⟩
  obtain ⟨hlow, hhigh⟩ := h k hlt
  exact ⟨hlow, hhigh, hk k hlt.le⟩

/-- Settles O60: the poll's word has a zero low byte, so the read at KBSR_ADDR ends the string or fails. -/
theorem putspStopsAtKeyboardStatus : Obligations.PutspStopsAtKeyboardStatus := by
  unfold Obligations.PutspStopsAtKeyboardStatus
  intro n s hn hk h hn'
  rw [exec_putsp_prefix hn h, hn']
  refine ⟨fun hnot => ?_, fun hfail => ?_⟩
  · obtain ⟨v, m, hread, heff, hregs, hcond, hpc, hout, hctl⟩ := memRead_of_not_fails hk hnot
    have hlow : lowByte v = 0 := by obtain rfl | rfl := memRead_kbsr_value hk hread <;> decide
    refine ⟨v, _, putspLoop_lowZero (memRead_consolePutAll _ hread) hlow, readEffect_congr heff (fun _ => rfl) rfl,
      hregs, hcond, hpc, hctl, ?_⟩
    rw [consolePutAll_output, hout]
    rfl
  · rw [putspLoop]
    exact withRead_of_fails (s := consolePutAll (putspBytes n (s.reg 0) s) s) hfail _

/-- Settles O42: KBSR_ADDR is fewer cells away than one step visits. -/
theorem putspEndsInOneInstruction : Obligations.PutspEndsInOneInstruction := by
  unfold Obligations.PutspEndsInOneInstruction
  exact fun s hk => putspLoop_ends stringFuel (s.reg 0) s hk (s.cfg.kbsrAddr - s.reg 0).isLt

end Sys2Proof.Machine
end

section
/-!
PROOFS. Rules about all instructions (spec 10_state R21, R25, R29, R31, R32; 20_memory R50, R52, R56; 43_trap R150).
`exec_effect` says once which of five forms an instruction's effect has; each rule is read off the forms.
-/

namespace Sys2Proof.Machine

/-! ### The form of an instruction's effect -/

/-- The four instructions of 41_control that write pc. -/
def transfersControl : Instr → Bool
  | .br _ _ _ _ | .jmp _ | .jsr _ | .jsrr _ => true
  | _ => false

/-- What an instruction does beyond reading memory and using the console (`IoFrame`): nothing, a register with its
flags, a cell, a jump, or HALT. -/
inductive ExecEffect (i : Instr) (s t : State) : Prop where
  | io (h : IoFrame s t)
  | writes (hi : setsFlags i = true) (u : State) (h : IoFrame s u) (d : RegNum) (v : Word)
      (hd : isTrap i = true → d = 0) (ht : t = writeWithFlags d v u)
  | stores (hi : storesToMemory i = true) (u : State) (h : IoFrame s u) (a v : Word) (ht : t = memWrite a v u)
  | jumps (hi : transfersControl i = true) (hcond : t.cond = s.cond) (hcells : SameCells s t)
  | halts (ht : t = s.setRunning false)

/-- What `withRead` goes on with lies inside the frame; a failing read ends inside it. -/
theorem withRead_next {a : Word} {s t : State} {k : Word → State → Result} (h : withRead a s k = .next t) :
    IoFrame s t ∨ ∃ v u, IoFrame s u ∧ k v u = .next t := by
  obtain ⟨v, u, hread, hio, -⟩ | ⟨u, hread, -, hio, -⟩ := memRead_frame a s
  · exact .inr ⟨v, u, hio, by rwa [withRead_value hread] at h⟩
  · rw [withRead_inputError hread] at h
    obtain rfl := Host.Outcome.next.inj h
    exact .inl (hio.trans (.setFault _ _))

/-- One read into a register with its flags. -/
theorem readIntoReg_effect {i : Instr} {a : Word} {d : RegNum} {s u t : State} (hi : setsFlags i = true)
    (hd : isTrap i = true → d = 0) (hu : IoFrame s u) (h : readIntoReg a d u = .next t) : ExecEffect i s t := by
  obtain hio | ⟨v, m, hio, hm⟩ := withRead_next h
  · exact .io (hu.trans hio)
  · exact .writes hi m (hu.trans hio) d v hd (Host.Outcome.next.inj hm).symm

theorem getcRead_effect {s t : State} (h : getcRead s = .next t) : ExecEffect .trapGetc s t := by
  have hio := IoFrame.setInput s (getSource_suffix s.input)
  obtain ⟨b, -, he⟩ | ⟨-, he⟩ | ⟨-, he⟩ := getcRead_cases s
  · exact .writes rfl _ hio 0 _ (fun _ => rfl) (Host.Outcome.next.inj (h.symm.trans he))
  · obtain rfl := Host.Outcome.next.inj (h.symm.trans he)
    exact .io (hio.trans (.setService _ _))
  · obtain rfl := Host.Outcome.next.inj (h.symm.trans he)
    exact .io (hio.trans (.setFault _ _))

theorem inRead_effect {s u t : State} (hu : IoFrame s u) (h : inRead u = .next t) : ExecEffect .trapIn s t := by
  have hio := hu.trans (.setInput u (getSource_suffix u.input))
  obtain ⟨b, -, he⟩ | ⟨-, he⟩ | ⟨-, he⟩ := inRead_cases u
  · exact .writes rfl _ (hio.trans (.consolePut b _)) 0 _ (fun _ => rfl) (Host.Outcome.next.inj (h.symm.trans he))
  · obtain rfl := Host.Outcome.next.inj (h.symm.trans he)
    exact .io (hio.trans (.setService _ _))
  · obtain rfl := Host.Outcome.next.inj (h.symm.trans he)
    exact .io (hio.trans (.setFault _ _))

/-- Every instruction's effect has one of the five forms. -/
theorem exec_effect {i : Instr} {s t : State} (h : exec i s = .next t) : ExecEffect i s t := by
  have hrefl := IoFrame.refl s
  cases i with
  | br n z p o =>
    obtain rfl := Host.Outcome.next.inj ((exec_br n z p o s).symm.trans h)
    exact .jumps rfl rfl fun _ => rfl
  | jmp | jsr | jsrr =>
    obtain rfl := Host.Outcome.next.inj h
    exact .jumps rfl rfl fun _ => rfl
  | addReg | addImm | andReg | andImm | not | lea =>
    exact .writes rfl s hrefl _ _ nofun (Host.Outcome.next.inj h).symm
  | ld | ldr => exact readIntoReg_effect rfl nofun hrefl h
  | ldi d o =>
    obtain hio | ⟨p, u, hio, hu⟩ := withRead_next h
    · exact .io hio
    · exact readIntoReg_effect rfl nofun hio hu
  | st | str => exact .stores rfl s hrefl _ _ (Host.Outcome.next.inj h).symm
  | sti r o =>
    obtain hio | ⟨p, u, hio, hu⟩ := withRead_next h
    · exact .io hio
    · exact .stores rfl u hio _ _ (Host.Outcome.next.inj hu).symm
  | res8 | res13 =>
    obtain rfl := Host.Outcome.next.inj h
    exact .io hrefl
  | trapGetc => exact getcRead_effect h
  | trapIn => exact inRead_effect (.consolePutAll _ s) h
  | trapOut =>
    obtain rfl := Host.Outcome.next.inj h
    exact .io (.consolePut _ s)
  | trapPuts =>
    obtain ⟨u, hu, hio, -⟩ := putsLoop_frame stringFuel (s.reg 0) s
    obtain rfl := Host.Outcome.next.inj (hu.symm.trans h)
    exact .io hio
  | trapPutsp =>
    obtain ⟨u, hu, hio, -⟩ := putspLoop_frame stringFuel (s.reg 0) s
    obtain rfl := Host.Outcome.next.inj (hu.symm.trans h)
    exact .io hio
  | trapHalt => exact .halts (Host.Outcome.next.inj h).symm
  | trapUnrecognised code =>
    obtain rfl := Host.Outcome.next.inj h
    exact .io (.setFault _ s)

/-! ### Flags, pc and cells -/

theorem exec_keeps_cond {i : Instr} {s t : State} (hi : setsFlags i = false) (h : exec i s = .next t) :
    t.cond = s.cond := by
  cases exec_effect h with
  | io hio => exact hio.cond
  | writes hset => simp [hi] at hset
  | stores _ u hio a v ht => rw [ht]; exact hio.cond
  | jumps _ hcond => exact hcond
  | halts ht => rw [ht]; rfl

theorem exec_keeps_pc {i : Instr} {s t : State} (hi : transfersControl i = false) (h : exec i s = .next t) :
    t.pc = s.pc := by
  cases exec_effect h with
  | io hio => exact hio.pc
  | writes _ u hio d v _ ht => rw [ht]; exact hio.pc
  | stores _ u hio a v ht => rw [ht]; exact hio.pc
  | jumps hjump => simp [hi] at hjump
  | halts ht => rw [ht]; rfl

theorem exec_keeps_cell {i : Instr} {s t : State} (hi : storesToMemory i = false) (h : exec i s = .next t) {a : Word}
    (h1 : a ≠ s.cfg.kbsrAddr) (h2 : a ≠ s.cfg.kbdrAddr) : t.cell a = s.cell a := by
  cases exec_effect h with
  | io hio => exact hio.cells a h1 h2
  | writes _ u hio d v _ ht => rw [ht]; exact hio.cells a h1 h2
  | stores hstore => simp [hi] at hstore
  | jumps _ _ hcells => exact hcells a
  | halts ht => rw [ht]; rfl

/-- Settles O49, from the forms of an effect. -/
theorem flagsStayButForTheSetters : Obligations.FlagsStayButForTheSetters := by
  unfold Obligations.FlagsStayButForTheSetters
  exact fun i s t hi h => exec_keeps_cond hi h

/-- Settles O53, from the forms of an effect. -/
theorem onlyStoresChangeOrdinaryCells : Obligations.OnlyStoresChangeOrdinaryCells := by
  unfold Obligations.OnlyStoresChangeOrdinaryCells
  exact fun i s t hi h a h1 h2 => exec_keeps_cell hi h h1 h2

/-- Settles O50: the four control transfers by their rules, every other instruction by the forms of an effect. -/
theorem pcChangesOnlyByControlTransfer : Obligations.PcChangesOnlyByControlTransfer := by
  unfold Obligations.PcChangesOnlyByControlTransfer
  intro i s t h
  cases i with
  | br n z p o =>
    obtain rfl := Host.Outcome.next.inj ((exec_br n z p o s).symm.trans h)
    rw [State.setPc_pc]
    cases branchTaken n z p s with
    | true => exact .inr rfl
    | false => exact .inl rfl
  | jmp base =>
    obtain rfl := Host.Outcome.next.inj ((exec_jmp base s).symm.trans h)
    rfl
  | jsr o =>
    obtain rfl := Host.Outcome.next.inj ((exec_jsr o s).symm.trans h)
    rfl
  | jsrr base =>
    obtain rfl := Host.Outcome.next.inj ((exec_jsrr base s).symm.trans h)
    exact State.setReg_reg s 7 base s.pc
  | _ => exact exec_keeps_pc rfl h

/-! ### TRAP -/

/-- Of the TRAPs, GETC and IN alone write a register. -/
theorem getc_or_in_of_setsFlags {i : Instr} (htrap : isTrap i = true) (hset : setsFlags i = true) :
    i = .trapGetc ∨ i = .trapIn := by
  cases i with
  | trapGetc => exact .inl rfl
  | trapIn => exact .inr rfl
  | _ => simp [isTrap, setsFlags] at htrap hset

theorem isTrap_excludes {i : Instr} (htrap : isTrap i = true) :
    storesToMemory i = false ∧ transfersControl i = false := by
  cases i with
  | trapGetc | trapOut | trapPuts | trapIn | trapPutsp | trapHalt | trapUnrecognised => exact ⟨rfl, rfl⟩
  | _ => simp [isTrap] at htrap

/-- A TRAP's registers: R0 may be written, with its flags, by GETC and IN alone. -/
theorem exec_trap_reg {i : Instr} {s t : State} (htrap : isTrap i = true) (h : exec i s = .next t) (r : RegNum)
    (hr : r ≠ 0 ∨ setsFlags i = false) : t.reg r = s.reg r := by
  obtain ⟨hnostore, hnojump⟩ := isTrap_excludes htrap
  cases exec_effect h with
  | io hio => exact hio.reg r
  | writes hset u hio d v hd ht =>
    obtain rfl := hd htrap
    obtain hr | hr := hr
    · rw [ht]
      exact (State.setReg_reg_of_ne u v hr).trans (hio.reg r)
    · simp [hr] at hset
  | stores hstore => simp [hnostore] at hstore
  | jumps hjump => simp [hnojump] at hjump
  | halts ht => rw [ht]; rfl

/-- Settles O47, from the registers of a TRAP and the forms of an effect. -/
theorem trapWritesNoRegisterButR0 : Obligations.TrapWritesNoRegisterButR0 := by
  unfold Obligations.TrapWritesNoRegisterButR0
  intro i s t htrap h
  refine ⟨exec_keeps_pc (isTrap_excludes htrap).2 h, fun r hr => exec_trap_reg htrap h r (.inl hr),
    fun hgetc hin => exec_trap_reg htrap h 0 (.inr (Bool.eq_false_iff.mpr fun hset => ?_))⟩
  obtain hi | hi := getc_or_in_of_setsFlags htrap hset
  · exact hgetc hi
  · exact hin hi

/-! ### `running`, the fault record and the source -/

/-- Settles O51, from the frame of an instruction. -/
theorem onlyHaltClearsRunning : Obligations.OnlyHaltClearsRunning := by
  unfold Obligations.OnlyHaltClearsRunning
  exact fun i s t h hi => (exec_next h).running.resolve_right hi

/-- Settles O52, from the frame of an instruction. -/
theorem faultIsWrittenOnlyByARaise : Obligations.FaultIsWrittenOnlyByARaise := by
  unfold Obligations.FaultIsWrittenOnlyByARaise
  intro i s t h hne
  obtain ⟨hraise, -⟩ := (exec_next h).fault.resolve_left hne
  exact hraise

/-- Settles O55: without a read the handler is a chain of named updates, none of which looks at the source. -/
theorem inputIsUnseenWithoutARead : Obligations.InputIsUnseenWithoutARead := by
  unfold Obligations.InputIsUnseenWithoutARead
  intro i s es hi
  cases i with
  | br n z p o => exact ⟨_, exec_br n z p o s, rfl, exec_br n z p o (s.setInput es)⟩
  | addReg | addImm | andReg | andImm | not | lea | jmp | jsr | jsrr | st | str | res8 | res13 | trapOut | trapHalt
  | trapUnrecognised => exact ⟨_, rfl, rfl, rfl⟩
  | ld | ldi | ldr | sti | trapGetc | trapIn | trapPuts | trapPutsp => simp [readsMemoryOrSource] at hi

end Sys2Proof.Machine
end

section
/-!
PROOFS. What the host does (spec 45_run_loop_and_host R174 to R178, R185; 10_state R38): reset, Load, and Run, whose
loop is the step iterated.
-/

namespace Sys2Proof.Machine

/-! ### Reset -/

theorem resetOf_reg (c : Config) (r : RegNum) : (State.resetOf c).reg r = c.regInit := by
  simp [State.resetOf, State.reg]

theorem resetOf_cell (c : Config) (a : Word) : (State.resetOf c).cell a = c.memInit := rfl

/-- Settles O5: `State.resetOf` holds each parameter where the spec puts it, and a host's reset is `State.resetOf` of
the state's own parameters, the console's two ends kept. -/
theorem resetLeavesTheParameters : Obligations.ResetLeavesTheParameters := by
  unfold Obligations.ResetLeavesTheParameters
  refine ⟨fun c => ⟨resetOf_reg c, rfl, rfl, rfl, rfl, resetOf_cell c⟩, fun s ha => ?_,
    resetOf_reg defaultConfig, rfl, rfl, resetOf_cell defaultConfig, rfl, rfl, rfl⟩
  obtain ⟨ha', -⟩ | ⟨-, hreset⟩ := hostReset_cases s
  · simp [ha] at ha'
  · exact ⟨_, hreset, resetOf_reg s.cfg, rfl, rfl, rfl, rfl, rfl, rfl, resetOf_cell s.cfg, ⟨rfl, rfl⟩, rfl⟩

/-! ### Load -/

section
variable {s : State}

theorem load_of_active (ha : s.active = true) (image : List Byte) : load image s = .refused .loadDuringRun := by
  simp [load, ha]

theorem load_nil (ha : s.active = false) : load [] s = .refused .imageTooShort := by simp [load, ha]

theorem load_singleton (ha : s.active = false) (b : Byte) : load [b] s = .refused .imageTooShort := by
  simp [load, ha]

/-- An image with an origin loads where it fits below the top of memory (D19). -/
theorem load_cons_cons (ha : s.active = false) (hi lo : Byte) (rest : List Byte) :
    load (hi :: lo :: rest) s =
      if rest.length / 2 ≤ 65536 - (256 * hi.toNat + lo.toNat) then .next (loadWords (imageWord hi lo) rest s)
      else .refused .imageTooLong := by
  simp [load, ha, imageWord_toNat]

end

/-- R60: an image word as its number. -/
theorem imageWord_eq_ofNat (hi lo : Byte) : imageWord hi lo = BitVec.ofNat 16 (256 * hi.toNat + lo.toNat) := by
  rw [← imageWord_toNat, BitVec.ofNat_toNat, BitVec.setWidth_eq]

/-- Settles O56: the cells of `loadWords` at the origin's number, and its frame, which is everything but memory. -/
theorem loadStoresTheImage : Obligations.LoadStoresTheImage := by
  unfold Obligations.LoadStoresTheImage
  intro hi lo rest s ha hfit
  rw [load_cons_cons ha, if_pos hfit]
  have hcells := loadWords_cells rest (imageWord hi lo) s
  rw [imageWord_toNat] at hcells
  obtain ⟨hin, hout⟩ := hcells hfit
  obtain ⟨m, hm⟩ := loadWords_frame (imageWord hi lo) rest s
  refine ⟨_, rfl, fun i hlt => ?_, hout, ?_⟩
  · rw [hin i hlt, imageWord_eq_ofNat]
  · rw [hm]
    exact ⟨fun _ => rfl, rfl, rfl, ⟨rfl, rfl⟩, rfl, rfl, rfl, rfl, rfl⟩

/-! ### Refusals -/

theorem hostReset_of_active {s : State} (ha : s.active = true) : hostReset s = .refused .resetDuringRun := by
  simp [hostReset, ha]

theorem run_of_hasRun {s : State} (h : s.hasRun = true) (n : Nat) : run n s = .refused .secondRun := by
  simp [run, startRun, h]

/-- Settles O57, refusal by refusal. -/
theorem hostOperationsRefuseByName : Obligations.HostOperationsRefuseByName := by
  unfold Obligations.HostOperationsRefuseByName
  refine fun s => ⟨fun ha => ⟨load_nil ha, load_singleton ha, fun hi lo rest hlong => ?_⟩,
    fun ha => ⟨load_of_active ha, hostReset_of_active ha⟩, run_of_hasRun⟩
  rw [load_cons_cons ha, if_neg (not_le.mpr hlong)]

/-! ### The loop of Run is the step iterated -/

theorem coreRun_succ {s t : State} (n : Nat) (h : step s = .next t) :
    Host.Core.run Sys2Proof.core (n + 1) s = Host.Core.run Sys2Proof.core n t := by
  have hcore : Sys2Proof.core.step s = .next t := h
  simp only [Host.Core.run, hcore]

theorem runLoop_succ {s t : State} (n : Nat) (ha : s.active = true) (h : step s = .next t) :
    runLoop (n + 1) s = runLoop n t := by
  rw [runLoop, if_pos ha, h]

theorem runLoop_of_not_active {s : State} (n : Nat) (ha : s.active = false) : runLoop n s = .next s := by
  cases n with
  | zero => rfl
  | succ n => rw [runLoop, if_neg (by simp [ha])]

/-- A stopped core stays as it is for any number of steps (log 15). -/
theorem coreRun_of_not_active {s : State} (n : Nat) (ha : s.active = false) :
    Host.Core.run Sys2Proof.core n s = .next s := by
  induction n with
  | zero => rfl
  | succ n ih => rw [coreRun_succ n (step_of_not_active ha), ih]

theorem runLoop_eq_coreRun (n : Nat) (s : State) : runLoop n s = Host.Core.run Sys2Proof.core n s := by
  induction n generalizing s with
  | zero => rfl
  | succ n ih =>
    cases ha : s.active with
    | false => exact (runLoop_of_not_active _ ha).trans (coreRun_of_not_active _ ha).symm
    | true =>
      obtain ⟨t, ht, -⟩ := step_frame s
      rw [runLoop_succ n ha ht, coreRun_succ n ht, ih]

/-- Settles O58, by induction on the number of trips. -/
theorem runLoopIsTheStepIterated : Obligations.RunLoopIsTheStepIterated := by
  unfold Obligations.RunLoopIsTheStepIterated
  exact runLoop_eq_coreRun

/-! ### How a run ends -/

/-- No trap code but 0x25 decodes to HALT (R87). -/
theorem code_of_decodeTrap_halt {code : Byte} (h : decodeTrap code = .trapHalt) : code = 0x25 := by
  cases hc : isServiceCode code with
  | true => revert h hc; revert code; decide
  | false => rw [decodeTrap_of_not_service hc] at h; cases h

/-- A word that decodes to HALT has HALT's trap code, under every OPCODE_MAP. -/
theorem trapField_of_decode_halt {m : OpcodeMap} {w : Word} (h : decode m w = .trapHalt) : trapField w = 0x25 := by
  have hop : opcodeOf m (opField w) = .trap := by rw [← instrOpcode_decode, h]; rfl
  rw [decode_trap hop] at h
  exact code_of_decodeTrap_halt h

/-- Neither word of the poll is HALT. -/
theorem decode_pollWord_ne_halt {m : OpcodeMap} {v : Word} (hv : v = 0x8000 ∨ v = 0x0000) :
    decode m v ≠ .trapHalt := by
  intro h
  have hcode := trapField_of_decode_halt h
  obtain rfl | rfl := hv
  · exact absurd hcode (by decide)
  · exact absurd hcode (by decide)

/-- The trip that ends a run was HALT, fetched from an ordinary cell, or raised a fatal error. -/
def EndsRun (u t : State) : Prop :=
  (t.running = false ∧ t.fault = .none ∧ u.service = none ∧ u.pc ≠ u.cfg.kbsrAddr ∧
      decode u.cfg.opcodeMap (u.cell u.pc) = .trapHalt) ∨
    (t.running = true ∧ t.fault ≠ .none)

theorem endsRun_of_running {u t : State} (ht : t.active = false) (hrun : t.running = true) : EndsRun u t := by
  refine .inr ⟨hrun, fun hf => ?_⟩
  rw [(State.active_iff t).mpr ⟨hrun, hf⟩] at ht
  cases ht

/-- A step out of a run is HALT or a fatal error: a service's end and every other instruction leave `running` set, and
the words of the poll are not HALT. -/
theorem endsRun_of_step {u t : State} (hk : u.cfg.kbsrAddr ≠ u.cfg.kbdrAddr) (ha : u.active = true)
    (h : step u = .next t) (ht : t.active = false) : EndsRun u t := by
  obtain ⟨hrun, hfault⟩ := (State.active_iff u).mp ha
  cases hs : u.service with
  | some v =>
    obtain ⟨t', i, ht', hframe, hi⟩ := resume_frame v u
    obtain rfl := Host.Outcome.next.inj (ht'.symm.trans ((step_eq_resume ha hs).symm.trans h))
    exact endsRun_of_running ht ((hframe.running.resolve_right hi).trans hrun)
  | none =>
    rw [step_eq_fetch ha hs, fetch] at h
    obtain ⟨v, m, hread, hio, -, hmfault, -⟩ | ⟨m, hread, -, hio, -⟩ := memRead_frame u.pc u
    · rw [withRead_value hread] at h
      obtain hsame | hhalt := (exec_next h).running
      · exact endsRun_of_running ht (hsame.trans (hio.running.trans hrun))
      · have hpc : u.pc ≠ u.cfg.kbsrAddr := fun hpc =>
          decode_pollWord_ne_halt (memRead_kbsr_value hk (hpc ▸ hread)) hhalt
        rw [memRead_plain hpc] at hread
        obtain ⟨rfl, rfl⟩ := ReadResult.value.inj hread
        rw [hhalt, exec_halt] at h
        obtain rfl := Host.Outcome.next.inj h
        exact .inl ⟨rfl, hfault, hs, hpc, hhalt⟩
    · rw [withRead_inputError hread] at h
      obtain rfl := Host.Outcome.next.inj h
      exact endsRun_of_running ht (hio.running.trans hrun)

/-- How `n` trips of the loop go from a state it goes on from: either all of them are made, each from such a state, or
one of them ends the run. -/
def RunTrace (n : Nat) (s t : State) : Prop :=
  (t.active = true → ∀ k, k ≤ n → ∃ u,
      Host.Core.run Sys2Proof.core k s = .next u ∧ u.active = true ∧ (k = n → u = t)) ∧
    (t.active = false → ∃ k u, k < n ∧ Host.Core.run Sys2Proof.core k s = .next u ∧ u.active = true ∧
      step u = .next t ∧ EndsRun u t)

theorem runTrace_zero {s : State} (ha : s.active = true) : RunTrace 0 s s := by
  refine ⟨fun _ k hk => ⟨s, ?_, ha, fun _ => rfl⟩, fun hna => ?_⟩
  · obtain rfl := Nat.le_zero.mp hk
    rfl
  · simp [ha] at hna

/-- A trip before a trace. -/
theorem runTrace_succ {n : Nat} {s u t : State} (ha : s.active = true) (hstep : step s = .next u)
    (h : RunTrace n u t) : RunTrace (n + 1) s t := by
  obtain ⟨hgoes, hends⟩ := h
  refine ⟨fun hact k hk => ?_, fun hna => ?_⟩
  · cases k with
    | zero => exact ⟨s, rfl, ha, nofun⟩
    | succ k =>
      obtain ⟨w, hw, hwa, hlast⟩ := hgoes hact k (by omega)
      exact ⟨w, by rw [coreRun_succ k hstep, hw], hwa, fun hkn => hlast (by omega)⟩
  · obtain ⟨k, w, hk, hw, hrest⟩ := hends hna
    exact ⟨k + 1, w, by omega, by rw [coreRun_succ k hstep, hw], hrest⟩

/-- The last trip of a trace. -/
theorem runTrace_of_end {n : Nat} {s t : State} (ha : s.active = true) (hstep : step s = .next t)
    (ht : t.active = false) (hend : EndsRun s t) : RunTrace (n + 1) s t := by
  refine ⟨fun hact => ?_, fun _ => ⟨0, s, by omega, rfl, ha, hstep, hend⟩⟩
  simp [ht] at hact

theorem step_hasRun {s t : State} (h : step s = .next t) : t.hasRun = s.hasRun := by
  obtain rfl | ⟨-, i, u, hd, hframe⟩ := step_next h
  · rfl
  · exact hframe.hasRun.trans hd.hasRun

/-- The loop keeps the invariant and the run's mark, and makes a trace. -/
theorem runLoop_trace (n : Nat) {s : State} (hinv : MachineInv s) (ha : s.active = true) :
    ∃ t, runLoop n s = .next t ∧ MachineInv t ∧ t.hasRun = s.hasRun ∧ RunTrace n s t := by
  induction n generalizing s with
  | zero => exact ⟨s, rfl, hinv, rfl, runTrace_zero ha⟩
  | succ n ih =>
    obtain ⟨u, hstep, -⟩ := step_frame s
    have huinv : MachineInv u := step_keeps_machineInv hinv hstep
    have hmark : u.hasRun = s.hasRun := step_hasRun hstep
    rw [runLoop_succ n ha hstep]
    cases hua : u.active with
    | true =>
      obtain ⟨t, ht, htinv, htmark, htrace⟩ := ih huinv hua
      exact ⟨t, ht, htinv, htmark.trans hmark, runTrace_succ ha hstep htrace⟩
    | false =>
      obtain ⟨-, ⟨hk, -⟩, -⟩ := hinv
      exact ⟨u, runLoop_of_not_active n hua, huinv, hmark,
        runTrace_of_end ha hstep hua (endsRun_of_step hk ha hstep hua)⟩

/-- The first line of Run (R174). -/
def started (s : State) : State := { s with running := true, hasRun := true }

/-- A machine not yet run has no fault and is inside no service, so Run starts it in the invariant. -/
theorem started_machineInv {s : State} (hinv : MachineInv s) (h : s.hasRun = false) :
    MachineInv (started s) ∧ (started s).active = true := by
  obtain ⟨hwf, hcfg, hcond, -, hhas, hfault⟩ := hinv
  have hnotrun : s.running = false := Bool.eq_false_iff.mpr fun hrun => by simp [hhas hrun] at h
  have hnofault : s.fault = .none := by_contra fun hne => by simp [hfault hne] at hnotrun
  have ha : (started s).active = true := (State.active_iff _).mpr ⟨rfl, hnofault⟩
  exact ⟨⟨hwf, hcfg, hcond, fun _ => ha, fun _ => rfl, fun _ => rfl⟩, ha⟩

theorem run_eq_runLoop {s : State} (h : s.hasRun = false) (n : Nat) : run n s = runLoop n (started s) := by
  simp [run, startRun, h, started]

/-- Settles O59: the loop's trace from the started state. -/
theorem runEndsByHaltOrFatalError : Obligations.RunEndsByHaltOrFatalError := by
  unfold Obligations.RunEndsByHaltOrFatalError
  intro n s hinv h
  obtain ⟨hinv', ha⟩ := started_machineInv hinv h
  obtain ⟨t, ht, htinv, hmark, hgoes, hends⟩ := runLoop_trace n hinv' ha
  exact ⟨run_eq_runLoop h n, t, (run_eq_runLoop h n).trans ht, htinv, hmark, hgoes, hends⟩

end Sys2Proof.Machine
end
